-- ==== Sys2Proof/Word.lean ====
section
/-! DEFINITION. The words of the hardware and their plainest arithmetic: a byte, a 16-bit period, the selector
names of the typed commands. Every quantity is unsigned (00_scope.md R9, 41_register_commands.md R150). -/

namespace Sys2Proof

/-- Eight bits: an address or a datum on D7..D0 (00_scope.md R7, `DATA_W`, `ADDR_W`). -/
abbrev Byte := BitVec 8

/-- Sixteen bits: a tone or envelope period (30_encoding.md R85). -/
abbrev Period := BitVec 16

/-- `Channel` A, B or C (00_scope.md glossary; numbered 0, 1, 2 by 30_encoding.md R84). -/
inductive Channel where
  | a
  | b
  | c
deriving DecidableEq, Repr

/-- `IoPort` A or B (00_scope.md glossary; numbered 0, 1 by 30_encoding.md R84). -/
inductive IoPort where
  | a
  | b
deriving DecidableEq, Repr

end Sys2Proof
end

