-- ==== Sys2Proof/Config.lean ====
section
/-! DEFINITION. What is fixed for the machine: the settled parameters of 00_scope.md R7, and the error type the host's
machine runs at. The open parameters of R8 are no constants: the type of error values is an argument of every definition (R31), and
the pin environment's answers, the transient responses and `CHIP_ADDR_DECODE` stand as plain data in `Env` (assumptions 1, 2, 3), over
every value of which the statements hold. -/

namespace Sys2Proof.Config

/-- `N_REG`: registers the chip exposes (R7). -/
def nReg : Nat := 16

/-- `T_SETTLE_US`: the length of every wait, in microseconds (R7, R111). -/
def settleUs : Nat := 1

/-- `N_STEP`: micro-events of one register-write transaction (R7, R125). -/
def nStep : Nat := 28

/-- `LEVEL_ENVELOPE`: the byte for an envelope-following channel (R7, R86). -/
def levelEnvelope : Byte := 0x10

/-- `LEVEL_MASK`: the mask of a fixed level (R7, R86). -/
def levelMask : Byte := 0x0F

/-- `SHAPE_MASK`: the mask of an envelope shape (R7, R88). -/
def shapeMask : Byte := 0x0F

/-- The error type of the machine the host runs. `ErrVal` itself is an argument of the model (10_state.md R31): every definition of
`Sys2Proof.Machine` takes any type in its place. The host's interface takes one state type, without arguments and comparable, so the
machine it runs is the model at this type: a tag without arithmetic (DESIGN CHOICE, assumption 4; safe:
`Obligations.ErrorValuesAreNeverInspected`). -/
structure ErrVal where
  tag : Nat
deriving DecidableEq, Repr

end Sys2Proof.Config
end

