-- ==== Sys2Proof/Syntax.lean ====
section
/-! DEFINITION. The operations of 30_encoding.md R96, one constructor per row of spec/opcode_table.json: ten
command forms, five micro-operations, and the reset. -/

namespace Sys2Proof

/-- An operation with its operands (R92, R96). A channel and a port are typed, as in the source; the envelope shape is
carried as a byte, so that the mask of R148 has something to remove (assumption 19). -/
inductive Instr where
  /-- `CLR`, `clear_all_registers()` (R141). -/
  | clr
  /-- `WREG`, `set_register_value(address, value)` (R142). -/
  | wreg (address value : Byte)
  /-- `TONE`, `set_channel_frequency(channel, frequency)` (R143). -/
  | tone (ch : Channel) (frequency : Period)
  /-- `NOISE`, `set_noise(frequency)` (R144). -/
  | noise (frequency : Byte)
  /-- `MIX`, `set_mixer_settings(settings)` (R145). -/
  | mix (settings : Byte)
  /-- `LVLF`, `set_channel_level(channel, Fixed(n))` (R146). -/
  | lvlf (ch : Channel) (n : Byte)
  /-- `LVLE`, `set_channel_level(channel, Envelope)` (R146). -/
  | lvle (ch : Channel)
  /-- `ENVF`, `set_envelope_frequency(frequency)` (R147). -/
  | envf (frequency : Period)
  /-- `ENVS`, `set_envelope_shape(shape)` (R148). -/
  | envs (shape : Byte)
  /-- `IOW`, `set_io_port_data(port, data)` (R149). -/
  | iow (port : IoPort) (data : Byte)
  /-- `UINA`, `enter_inactive_mode()` (R113). -/
  | uina
  /-- `UADR`, `enter_address_mode()` (R114). -/
  | uadr
  /-- `UWRT`, `enter_write_mode()` (R115). -/
  | uwrt
  /-- `UDRV`, `drive_byte(value)` (R116). -/
  | udrv (value : Byte)
  /-- `UTXN`, `write_register(address, value)` (R124). -/
  | utxn (address value : Byte)
  /-- `RESET`, construction (R201). -/
  | reset
deriving DecidableEq, Repr

end Sys2Proof
end

