-- ==== Sys2Proof/WellFormed.lean ====
section
/-! DEFINITION. Which operations an encoding can spell. The types of `Instr` leave one check: the shape operand
has four bits on the command port (30_encoding.md R88, R92; 41_register_commands.md R148). -/

namespace Sys2Proof

/-- The operands fit the fields of the encoding (R92). Only `ENVS` can fail: `IMM[15:4] = 0`. -/
def wellFormed : Instr → Bool
  | .envs shape => shape.extractLsb' 4 4 == 0
  | .clr => true
  | .wreg _ _ => true
  | .tone _ _ => true
  | .noise _ => true
  | .mix _ => true
  | .lvlf _ _ => true
  | .lvle _ => true
  | .envf _ => true
  | .iow _ _ => true
  | .uina => true
  | .uadr => true
  | .uwrt => true
  | .udrv _ => true
  | .utxn _ _ => true
  | .reset => true

end Sys2Proof
end

