-- ==== Sys2Proof/Decode.lean ====
section
/-! DEFINITION. Encodings (30_encoding.md sections 1 and 3): the formats of spec/opcode_table.json, the decoder,
total and rejecting by name, then the encoder, written from the same table R92. -/

namespace Sys2Proof

/-- A word of one of the five formats of spec/opcode_table.json. Only `cmd32` is on the command port (R90, R96). -/
inductive Encoded where
  /-- `CMD32`: a command word (R90, R91). -/
  | cmd32 (w : BitVec 32)
  /-- `CTRL2`: the pair (BDIR, BC1), BDIR in bit 1 (R80). -/
  | ctrl2 (w : BitVec 2)
  /-- `DATA8`: a byte on D7..D0 (R82). -/
  | data8 (w : BitVec 8)
  /-- `TXN16`: the address byte in bits 15:8, the value byte in bits 7:0 (R83; the operands of row `UTXN` of
  spec/opcode_table.json). -/
  | txn16 (w : BitVec 16)
  /-- `REQ1`: the reset request line (R83, R200). -/
  | req1 (w : BitVec 1)
deriving DecidableEq, Repr

/-- Why the decoder refuses a word: the field constraint of R92 that it breaks (R94), or the reserved mode code (R81). -/
inductive Reject where
  /-- `OP` 0x09 to 0xFF (R94). -/
  | reservedOp
  /-- `SEL` must be zero (`CLR`, `NOISE`, `MIX`, `ENVF`, `ENVS`). -/
  | selNotZero
  /-- A must-be-zero part of `IMM` is not zero. -/
  | immNotZero
  /-- `SEL` is 3 or more where it names a channel (`TONE`, `LVLF`, `LVLE`). -/
  | noChannel
  /-- `SEL` is 2 or more where it names a port (`IOW`). -/
  | noPort
  /-- `CTRL2` = `01`: (BDIR low, BC1 high), which no operation targets (R81). -/
  | reservedMode
  /-- The reset request line is not asserted (R200). -/
  | notRequested
deriving DecidableEq, Repr

/-! ### Fields -/

/-- `OP`, bits 31:24 (R91). -/
def opField (w : BitVec 32) : Byte := w.extractLsb' 24 8

/-- `SEL`, bits 23:16 (R91). -/
def selField (w : BitVec 32) : Byte := w.extractLsb' 16 8

/-- `IMM`, bits 15:0 (R91). -/
def immField (w : BitVec 32) : Period := w.extractLsb' 0 16

/-- The low byte `f[7:0]` of a 16-bit quantity (R85). -/
def lowByte (f : Period) : Byte := f.extractLsb' 0 8

/-- The high byte `f[15:8]` of a 16-bit quantity, unmasked (R85, R151). -/
def highByte (f : Period) : Byte := f.extractLsb' 8 8

/-- The channel a selector names: 0, 1, 2 are A, B, C (R84). -/
def channelOfSel (sel : Byte) : Option Channel :=
  if sel = 0 then some .a else if sel = 1 then some .b else if sel = 2 then some .c else none

/-- The port a selector names: 0, 1 are A, B (R84). -/
def portOfSel (sel : Byte) : Option IoPort :=
  if sel = 0 then some .a else if sel = 1 then some .b else none

/-! ### The decoder -/

/-- A form without selector, whose low byte of `IMM` is its operand (`NOISE`, `MIX`). -/
def decodeByteForm (sel : Byte) (imm : Period) (form : Byte → Instr) : Except Reject Instr :=
  if sel = 0 then
    if highByte imm = 0 then .ok (form (lowByte imm)) else .error .immNotZero
  else .error .selNotZero

/-- The two level forms of operation code 0x05, told apart by `IMM[8]` (R92, R93). -/
def decodeLevel (sel : Byte) (imm : Period) : Except Reject Instr :=
  match channelOfSel sel with
  | none => .error .noChannel
  | some ch =>
    if highByte imm = 0 then .ok (.lvlf ch (lowByte imm))
    else if imm = 0x0100 then .ok (.lvle ch)
    else .error .immNotZero

/-- `Decode(CW)` (R93), total on all 32-bit words. -/
def decodeCommand (w : BitVec 32) : Except Reject Instr :=
  let sel := selField w
  let imm := immField w
  match (opField w).toNat with
  | 0 =>
    if sel = 0 then (if imm = 0 then .ok .clr else .error .immNotZero) else .error .selNotZero
  | 1 => if highByte imm = 0 then .ok (.wreg sel (lowByte imm)) else .error .immNotZero
  | 2 =>
    match channelOfSel sel with
    | some ch => .ok (.tone ch imm)
    | none => .error .noChannel
  | 3 => decodeByteForm sel imm .noise
  | 4 => decodeByteForm sel imm .mix
  | 5 => decodeLevel sel imm
  | 6 => if sel = 0 then .ok (.envf imm) else .error .selNotZero
  | 7 =>
    if sel = 0 then
      if imm.extractLsb' 4 12 = 0 then .ok (.envs (lowByte imm)) else .error .immNotZero
    else .error .selNotZero
  | 8 =>
    match portOfSel sel with
    | some port => if highByte imm = 0 then .ok (.iow port (lowByte imm)) else .error .immNotZero
    | none => .error .noPort
  | _ => .error .reservedOp

/-- A mode code (R80); `01` is reserved (R81). -/
def decodeMode (w : BitVec 2) : Except Reject Instr :=
  if w = 0b00 then .ok .uina
  else if w = 0b11 then .ok .uadr
  else if w = 0b10 then .ok .uwrt
  else .error .reservedMode

/-- The decoder over all formats. -/
def decode : Encoded → Except Reject Instr
  | .cmd32 w => decodeCommand w
  | .ctrl2 w => decodeMode w
  | .data8 w => .ok (.udrv w)
  | .txn16 w => .ok (.utxn (highByte w) (lowByte w))
  | .req1 w => if w = 1 then .ok .reset else .error .notRequested

/-! ### The encoder -/

/-- A command word from its three fields (R91). -/
def commandWord (op sel : Byte) (imm : Period) : BitVec 32 :=
  op.setWidth 32 <<< 24 ||| sel.setWidth 32 <<< 16 ||| imm.setWidth 32

/-- An immediate that carries a byte: `IMM[15:8] = 0` (R91). -/
def byteImm (b : Byte) : Period := b.setWidth 16

/-- Two bytes in sixteen bits, the first above: `TXN16`, the address in bits 15:8, the value in bits 7:0 (row `UTXN` of
spec/opcode_table.json, R83). -/
def twoBytes (hi lo : Byte) : Period := hi.setWidth 16 <<< 8 ||| lo.setWidth 16

/-- The selector of a channel (R84). -/
def selOfChannel : Channel → Byte
  | .a => 0
  | .b => 1
  | .c => 2

/-- The selector of a port (R84). -/
def selOfPort : IoPort → Byte
  | .a => 0
  | .b => 1

/-- The word that spells an operation (R80, R82, R83, R92). For an ill-formed operation it is no spelling of it. -/
def encode : Instr → Encoded
  | .clr => .cmd32 (commandWord 0x00 0 0)
  | .wreg address value => .cmd32 (commandWord 0x01 address (byteImm value))
  | .tone ch frequency => .cmd32 (commandWord 0x02 (selOfChannel ch) frequency)
  | .noise frequency => .cmd32 (commandWord 0x03 0 (byteImm frequency))
  | .mix settings => .cmd32 (commandWord 0x04 0 (byteImm settings))
  | .lvlf ch n => .cmd32 (commandWord 0x05 (selOfChannel ch) (byteImm n))
  | .lvle ch => .cmd32 (commandWord 0x05 (selOfChannel ch) 0x0100)
  | .envf frequency => .cmd32 (commandWord 0x06 0 frequency)
  | .envs shape => .cmd32 (commandWord 0x07 0 (byteImm shape))
  | .iow port data => .cmd32 (commandWord 0x08 (selOfPort port) (byteImm data))
  | .uina => .ctrl2 0b00
  | .uadr => .ctrl2 0b11
  | .uwrt => .ctrl2 0b10
  | .udrv value => .data8 value
  | .utxn address value => .txn16 (twoBytes address value)
  | .reset => .req1 1

/-! ### The table's numbering -/

/-- The word a table row of `nbits` bits with bits `w` stands for. A row of 1, 2, 16 or 32 bits has one format. Eight
bits hold three formats (`CTRL2`, `REQ1` widened to a whole byte, and `DATA8`): 0, 2, 3 are read as the mode codes, 1 as the
reset request, any other byte as `DATA8` (DESIGN CHOICE, assumption 12: the spec gives these operations no common word; the
table's numbering is transport only). -/
def tableForm (nbits w : Nat) : Option Encoded :=
  match nbits with
  | 1 => some (.req1 (BitVec.ofNat 1 w))
  | 2 => some (.ctrl2 (BitVec.ofNat 2 w))
  | 8 =>
    match w with
    | 0 => some (.ctrl2 0b00)
    | 1 => some (.req1 1)
    | 2 => some (.ctrl2 0b10)
    | 3 => some (.ctrl2 0b11)
    | _ => some (.data8 (BitVec.ofNat 8 w))
  | 16 => some (.txn16 (BitVec.ofNat 16 w))
  | 32 => some (.cmd32 (BitVec.ofNat 32 w))
  | _ => none

/-- What the decoder reads from a row of spec/opcode_table.json, in the table's own numbering of bits. -/
def decodeTableWord (nbits w : Nat) : Option Instr :=
  match tableForm nbits w with
  | none => none
  | some e =>
    match decode e with
    | .ok i => some i
    | .error _ => none

end Sys2Proof
end

