-- ==== Sys2Proof/Machine/State.lean ====
section
/-! DEFINITION. The state of 10_state.md as plain data: the ten lines, the sequencer, the result, the chip-side observer
of 20_memory.md, the trace of 00_scope.md R12 (`Block`, R14's state), and beside them the parameters of the step relation (`Env`,
R14), held in `State` because the host's step takes a state and nothing else. The type `E` of error values is a parameter throughout
(10_state.md R31): no definition asks anything of it. -/

namespace Sys2Proof.Machine

open Sys2Proof.Config

/-! ### The lines -/

/-- A line level: 0, 1 or X, unknown (00_scope.md R10). -/
inductive Level where
  | low
  | high
  | x
deriving DecidableEq, Repr

/-- One of the ten lines (R20). -/
inductive Line where
  | bdir
  | bc1
  | d0
  | d1
  | d2
  | d3
  | d4
  | d5
  | d6
  | d7
deriving DecidableEq, Repr

/-- The levels of the ten lines (R20, R21). -/
structure Lines where
  bdir : Level
  bc1 : Level
  d0 : Level
  d1 : Level
  d2 : Level
  d3 : Level
  d4 : Level
  d5 : Level
  d6 : Level
  d7 : Level
deriving DecidableEq, Repr

/-- The values of `BusMode` (R24). -/
inductive BusMode where
  | inactive
  | write
  | addressLatch
  | unlisted
  | unknown
deriving DecidableEq, Repr

/-! ### Micro-events -/

/-- A micro-event the controller issues (R12, R110, R111). -/
inductive Event where
  /-- `P(n,b)`: set line `n` to low or high. -/
  | pinSet (n : Line) (b : Bool)
  /-- `W(t)`: wait at least `t` microseconds. -/
  | wait (t : Nat)
deriving DecidableEq, Repr

/-- The pin environment's answer to a pin set (R110). -/
inductive Answer (E : Type) where
  | ok
  | err (e : E)
deriving DecidableEq, Repr

/-- One entry of the trace: the micro-event and its answer (R12). A wait cannot fail (R111). -/
inductive TraceEntry (E : Type) where
  /-- `P(n,b)`, answered Ok. -/
  | set (n : Line) (b : Bool)
  /-- `P(n,b)!e`, answered Err(e). -/
  | setFailed (n : Line) (b : Bool) (e : E)
  /-- `W(t)`. -/
  | waited (t : Nat)
deriving DecidableEq, Repr

/-! ### The sequencer -/

/-- Run state (R27). -/
inductive RunState where
  | off
  | resetting
  | dead
  | idle
  | busy
deriving DecidableEq, Repr

/-- Sequencer position (R29): `(k, s)` while BUSY, `r` while RESETTING, otherwise no value (R37). -/
inductive Position where
  | noValue
  | step (k s : Nat)
  | resetStep (r : Nat)
deriving DecidableEq, Repr

/-- What an operation returned (R30). -/
inductive Result (E : Type) where
  | none
  | ok
  | fail (e : E)
deriving DecidableEq, Repr

/-! ### The chip-side observer -/

/-- A byte, or X (R66). -/
inductive ByteX where
  | byte (b : Byte)
  | x
deriving DecidableEq, Repr

/-- The chip's register file: the one address space (R50). Canonical form: addresses strictly rising, below 0x10; a
register that is not listed is X (R66, assumption 16). -/
abbrev Memory := List Host.Cell

/-- The observer's state (R66): the address latch and the registers. -/
structure Chip where
  al : ByteX
  regs : Memory
deriving DecidableEq, Repr

/-- `CHIP_ADDR_DECODE` (R71): what the chip does with a latched address of 0x10 or more. -/
inductive AddrDecode where
  | havoc
  | ignore
  | aliased
deriving DecidableEq, Repr

/-! ### Inputs -/

/-- An input the spec quantifies over, as plain data: the values to come, then one value for ever. Every finite sequence of
inputs is the start of some script (DESIGN CHOICE, assumptions 1 and 2; safe: statements hold for every script). -/
structure Script (α : Type) where
  upcoming : List α
  thereafter : α
deriving DecidableEq, Repr

/-- A move of the host (R16). -/
inductive HostMove where
  /-- Presents a word on the port of its format and waits for the operation's end: the source's blocking call (R63). A
  `ctrl2`, `data8` or `txn16` word runs one engine micro-operation by itself, which no host of this hardware can do (R96,
  90_conflicts.md C4; assumption 10). -/
  | call (e : Encoded)
  /-- Presents a command word and looks on: acceptance only (R90), then one micro-event a step (R29). -/
  | present (w : BitVec 32)
  /-- Requests a reset and looks on: RESETTING (R201), then one micro-event a step. -/
  | requestReset
  /-- Releases the controller: no micro-event (R206). -/
  | release
deriving DecidableEq, Repr

/-- The parameters of the step relation (R14) and the host's moves (R16), as plain data. -/
structure Env (E : Type) where
  /-- The answers to come of the pin environment (R110). -/
  pins : Script (Answer E)
  /-- At each transient exit to come, whether the chip responds (R68, R69). -/
  transients : Script Bool
  /-- `CHIP_ADDR_DECODE` (R71). -/
  addrDecode : AddrDecode
  /-- The host's moves to come (R16). -/
  agenda : List HostMove
deriving DecidableEq, Repr

/-! ### The whole state -/

/-- What R14 calls state: the controller's own (10_state.md), with the chip-side observer (R66) and the trace (R12) that it
reads (R67). -/
structure Block (E : Type) where
  /-- The line levels (R20, R21). The bus mode is not stored: it is a function of these (R25). -/
  lines : Lines
  /-- Run state (R27). -/
  run : RunState
  /-- Command latch (R28). -/
  cmd : Option Instr
  /-- Sequencer position (R29). -/
  pos : Position
  /-- The result of the last command or reset (R30). -/
  result : Result E
  /-- The chip-side observer (R66), outside the block. -/
  chip : Chip
  /-- The micro-events issued since power-on, newest first (R12, R67). -/
  trace : List (TraceEntry E)
deriving DecidableEq, Repr

/-- The state of the machine: R14's state, and as plain data the parameters its steps take. `E` is `ErrVal`, any type (R31); `State`
alone is the machine over `Config.ErrVal`, which the host runs (assumption 4). -/
structure State (E : Type := ErrVal) extends Block E where
  /-- The model's own: what the last micro-operation run by itself returned (assumption 10). -/
  engineReturn : Result E
  /-- The parameters to come (R14, R16). -/
  env : Env E
deriving DecidableEq, Repr

/-- Every line at X (R204). -/
def Lines.unknown : Lines := ⟨.x, .x, .x, .x, .x, .x, .x, .x, .x, .x⟩

/-- The observer at power-on: everything X (R66). Also what it is after it has lost everything (R70). -/
def Chip.lost : Chip := ⟨.x, []⟩

/-- The inputs of a quiet start (DESIGN CHOICE, assumptions 1, 2, 3 and 6): every pin set answered Ok, no transient response,
`CHIP_ADDR_DECODE` at the spec's default (R71), no host move. No statement rests on them. -/
def Env.quiet {E : Type} : Env E := ⟨⟨[], .ok⟩, ⟨[], false⟩, .havoc, []⟩

/-- Power-on, before any reset request (R37, R204). -/
def State.powerOn {E : Type} : State E where
  lines := Lines.unknown
  run := .off
  cmd := none
  pos := .noValue
  result := .none
  chip := Chip.lost
  trace := []
  engineReturn := .none
  env := Env.quiet

/-- The machine right after reset: power-on, then a reset that ended OK (R37, R201, R202). BDIR and BC1 are low, the data lines
still X, the chip as it was, the trace the two pin sets of the reset. -/
def State.reset : State where
  lines := ⟨.low, .low, .x, .x, .x, .x, .x, .x, .x, .x⟩
  run := .idle
  cmd := none
  pos := .noValue
  result := .ok
  chip := Chip.lost
  trace := [.set .bc1 false, .set .bdir false]
  engineReturn := .none
  env := Env.quiet

/-! ### How a step can stop -/

/-- A stop of the model. A pin failure is none of these: it ends a command and the machine goes on (R172). Both are safe: the
model stops where the state has no value to read (assumption 21), and no state that meets `Sys2Proof.Safety.PositionOk` does. -/
inductive Fault where
  /-- Raised by `sequencerStep`: BUSY or RESETTING, and the position has no value of that phase, or BUSY and no command is
  latched; reading "no value" is an error of the model (R37). Safe. -/
  | noValueRead
  /-- Raised by `sequencerStep`: the position names no micro-event of the latched plan (R29, R38). Safe. -/
  | positionOutOfRange
deriving DecidableEq, Repr

/-- A refusal: an instruction without a meaning. -/
inductive Refusal where
  /-- Raised by `exec`'s arm of an instruction that is not modelled yet. Safe: the model stops. No arm raises it now. -/
  | notModelled (mnemonic : String)
deriving DecidableEq, Repr

end Sys2Proof.Machine
end

