-- ==== Sys2Proof/Machine/Ops.lean ====
section
/-! DEFINITION. The shared operations: levels and lines (10_state.md R21 to R25), the chip's registers (20_memory.md R50, R54),
the inputs' scripts, the observer (R66 to R71), the two micro-events (40_bus_engine.md R110, R111), lists of them (R112), the
micro-operations' lists (R113 to R116, R124), and the one failure (60_exceptions.md R172, R179). -/

namespace Sys2Proof.Machine

open Sys2Proof.Config

variable {E : Type}

/-! ### Levels and lines -/

/-- The level a boolean names: high is 1 (R10, R80). -/
def Level.ofBool : Bool → Level
  | false => .low
  | true => .high

/-- The bit a level names, if it is known (R10). -/
def Level.bit? : Level → Option Bool
  | .low => some false
  | .high => some true
  | .x => none

/-- `L[n]` (R11). -/
def Lines.get (l : Lines) : Line → Level
  | .bdir => l.bdir
  | .bc1 => l.bc1
  | .d0 => l.d0
  | .d1 => l.d1
  | .d2 => l.d2
  | .d3 => l.d3
  | .d4 => l.d4
  | .d5 => l.d5
  | .d6 => l.d6
  | .d7 => l.d7

/-- `L[n] <- v` (R11): line `n` alone (R21, R110). -/
def Lines.set (l : Lines) (n : Line) (v : Level) : Lines :=
  match n with
  | .bdir => { l with bdir := v }
  | .bc1 => { l with bc1 := v }
  | .d0 => { l with d0 := v }
  | .d1 => { l with d1 := v }
  | .d2 => { l with d2 := v }
  | .d3 => { l with d3 := v }
  | .d4 => { l with d4 := v }
  | .d5 => { l with d5 := v }
  | .d6 => { l with d6 := v }
  | .d7 => { l with d7 := v }

/-- The two control lines (R22). -/
def Line.isControl : Line → Bool
  | .bdir => true
  | .bc1 => true
  | _ => false

/-- `BusMode(bdir, bc1)` (R24). -/
def busMode : Level → Level → BusMode
  | .low, .low => .inactive
  | .high, .low => .write
  | .high, .high => .addressLatch
  | .low, .high => .unlisted
  | .x, _ => .unknown
  | _, .x => .unknown

/-- `Mode()`, always a function of the control levels (R25). -/
def Lines.mode (l : Lines) : BusMode := busMode l.bdir l.bc1

/-- The byte whose bit `i` is the `i`-th argument (R82). -/
def byteOfBits (b0 b1 b2 b3 b4 b5 b6 b7 : Bool) : Byte :=
  BitVec.ofNat 8 (b0.toNat + 2 * b1.toNat + 4 * b2.toNat + 8 * b3.toNat
    + 16 * b4.toNat + 32 * b5.toNat + 64 * b6.toNat + 128 * b7.toNat)

/-- `DataByte()` (R23): the byte on D7..D0, X when any level is. -/
def Lines.dataByte (l : Lines) : ByteX :=
  match l.d0.bit?, l.d1.bit?, l.d2.bit?, l.d3.bit?, l.d4.bit?, l.d5.bit?, l.d6.bit?, l.d7.bit? with
  | some b0, some b1, some b2, some b3, some b4, some b5, some b6, some b7 =>
    .byte (byteOfBits b0 b1 b2 b3 b4 b5 b6 b7)
  | _, _, _, _, _, _, _, _ => .x

/-! ### The chip's registers -/

/-- `R[a]` (R66): X where nothing is listed. -/
def Memory.read : Memory → Nat → ByteX
  | [], _ => .x
  | (k, v) :: m, a => if a = k then .byte v else Memory.read m a

/-- Lists `a` with `v`, in its place. -/
def Memory.insert : Memory → Nat → Byte → Memory
  | [], a, v => [(a, v)]
  | (k, w) :: m, a, v =>
    if a < k then (a, v) :: (k, w) :: m
    else if a = k then (a, v) :: m
    else (k, w) :: Memory.insert m a v

/-- Takes `a` off the list. -/
def Memory.erase (m : Memory) (a : Nat) : Memory := m.filter fun c => c.1 ≠ a

/-- `R[a] <- v` (R11): the whole register (R54); X takes it off the list. -/
def Memory.write (m : Memory) (a : Nat) : ByteX → Memory
  | .byte v => m.insert a v
  | .x => m.erase a

/-- The canonical form: addresses strictly rising, each below `N_REG`. -/
def Memory.wf : Memory → Bool
  | [] => true
  | [(k, _)] => decide (k < nReg)
  | (k, _) :: (k', w) :: m => decide (k < k') && Memory.wf ((k', w) :: m)

/-! ### Scripts of inputs -/

/-- The input that comes next. -/
def Script.head {α : Type} (p : Script α) : α :=
  match p.upcoming with
  | [] => p.thereafter
  | a :: _ => a

/-- The inputs after the next. -/
def Script.tail {α : Type} (p : Script α) : Script α :=
  match p.upcoming with
  | [] => p
  | _ :: as => ⟨as, p.thereafter⟩

/-- The inputs after the next `n`. -/
def Script.drop {α : Type} (p : Script α) : Nat → Script α
  | 0 => p
  | n + 1 => p.tail.drop n

/-- A pin set answered Ok (R110). The error value is not looked at (R31). -/
def Answer.isOk : Answer E → Bool
  | .ok => true
  | .err _ => false

/-- The next `n` pin sets are answered Ok. -/
def answersOk : Nat → Script (Answer E) → Bool
  | 0, _ => true
  | n + 1, p => p.head.isOk && answersOk n p.tail

/-! ### The observer -/

/-- A write of the byte on the bus to the latched register (R69, R71). -/
def commit (dec : AddrDecode) (c : Chip) (d : ByteX) : Chip :=
  match c.al with
  | .x => { c with regs := [] }
  | .byte a =>
    if a.toNat < nReg then { c with regs := c.regs.write a.toNat d }
    else
      match dec with
      | .havoc => { c with regs := [] }
      | .ignore => c
      | .aliased => { c with regs := c.regs.write (a &&& 0x0F).toNat d }

/-- The exits at which the observer may act: from `AddressLatch` or `Write` to another mode that is known (R68, R69). -/
def isExit (m0 m1 : BusMode) : Bool :=
  (m0 == .addressLatch || m0 == .write) && m1 != m0 && m1 != .unknown

/-- What the chip makes of a set of a control line that took the levels from `l0` to `l1` (R67 to R70). `acts` says whether it
responds to an exit. -/
def chipAfter (dec : AddrDecode) (l0 l1 : Lines) (acts : Bool) (c : Chip) : Chip :=
  if l1.mode = .unknown then
    if l1.bdir = .low then c else Chip.lost
  else if isExit l0.mode l1.mode && acts then
    if l0.mode = .addressLatch then { c with al := l1.dataByte } else commit dec c l1.dataByte
  else c

/-- The micro-event just before was a wait: an exit now is settled (R67). -/
def lastWasWait : List (TraceEntry E) → Bool
  | .waited _ :: _ => true
  | _ => false

/-- Whether the chip responds to an exit now: it must to a settled one, and takes the next free boolean at a transient one
(R68, R69). -/
def responds (s : State E) : Bool := lastWasWait s.trace || s.env.transients.head

/-- Whether a pin set takes a free boolean: it makes a transient exit (R67 to R69). -/
def takesTransient (n : Line) (l0 l1 : Lines) (s : State E) : Bool :=
  n.isControl && isExit l0.mode l1.mode && !lastWasWait s.trace

/-- The observer's part of a pin set that took the levels from `l0` to `l1` (R67): nothing on a data line. -/
def observe (n : Line) (l0 l1 : Lines) (s : State E) : State E :=
  { s with
    chip := if n.isControl then chipAfter s.env.addrDecode l0 l1 (responds s) s.chip else s.chip
    env := { s.env with
      transients := if takesTransient n l0 l1 s then s.env.transients.tail else s.env.transients } }

/-! ### Micro-events and lists of them -/

/-- The trace entry of a pin set and its answer (R12). -/
def setEntry (n : Line) (b : Bool) : Answer E → TraceEntry E
  | .ok => .set n b
  | .err e => .setFailed n b e

/-- The level a pin set leaves: the one asked for, or X after `Err(e)` (R110). -/
def levelAfter (b : Bool) : Answer E → Level
  | .ok => Level.ofBool b
  | .err _ => .x

/-- The failure a pin set raises: `PinFault(e)` exactly when it is answered `Err(e)` (R171). -/
def faultOf : Answer E → Option E
  | .ok => none
  | .err e => some e

/-- `PinSet(n, b)` (R110), with the state after it and the failure it raises. -/
def pinSet (n : Line) (b : Bool) (s : State E) : State E × Option E :=
  let answer := s.env.pins.head
  let l1 := s.lines.set n (levelAfter b answer)
  let s1 := observe n s.lines l1 s
  ({ s1 with
      lines := l1
      trace := setEntry n b answer :: s1.trace
      env := { s1.env with pins := s1.env.pins.tail } },
    faultOf answer)

/-- `Wait(t)` (R111): an event of the trace; it writes no other state and cannot fail. -/
def wait (t : Nat) (s : State E) : State E := { s with trace := .waited t :: s.trace }

/-- One micro-event. -/
def issue (ev : Event) (s : State E) : State E × Option E :=
  match ev with
  | .pinSet n b => pinSet n b s
  | .wait t => (wait t s, none)

/-- A fixed list of micro-events in order; at the first failure the rest is dropped and the failure goes up unchanged
(R112). -/
def runEvents : List Event → State E → State E × Option E
  | [], s => (s, none)
  | ev :: evs, s =>
    match issue ev s with
    | (s1, none) => runEvents evs s1
    | (s1, some e) => (s1, some e)

/-! ### The micro-operations -/

/-- `enter_inactive_mode()` (R113). -/
def inactiveEvents : List Event := [.pinSet .bdir false, .pinSet .bc1 false]

/-- `enter_address_mode()` (R114). -/
def addressEvents : List Event := [.pinSet .bdir true, .pinSet .bc1 true]

/-- `enter_write_mode()` (R115). -/
def writeEvents : List Event := [.pinSet .bdir true, .pinSet .bc1 false]

/-- `drive_byte(value)` (R116): `D<i>` takes `value[i]`, D0 first. -/
def driveEvents (v : Byte) : List Event :=
  [.pinSet .d0 (v.getLsbD 0), .pinSet .d1 (v.getLsbD 1), .pinSet .d2 (v.getLsbD 2), .pinSet .d3 (v.getLsbD 3),
   .pinSet .d4 (v.getLsbD 4), .pinSet .d5 (v.getLsbD 5), .pinSet .d6 (v.getLsbD 6), .pinSet .d7 (v.getLsbD 7)]

/-- The settle delay: one wait of one microsecond (R111, R124). -/
def settleEvents : List Event := [.wait settleUs]

/-- `write_register(address, value)` (R124): the address phase, then the write phase. -/
def txnEvents (a v : Byte) : List Event :=
  addressEvents ++ driveEvents a ++ settleEvents ++ inactiveEvents ++ settleEvents
    ++ driveEvents v ++ writeEvents ++ settleEvents ++ inactiveEvents ++ settleEvents

/-! ### Ends of operations, and the one failure -/

/-- What an operation returns: success, or the first failure unchanged (R30, R170). -/
def resultOf : Option E → Result E
  | none => .ok
  | some e => .fail e

/-- The end of a command: the result is written and the controller is IDLE, after success (R140) and after
`PinFault(e)` alike (R172: no line is driven to a safe level, nothing is saved or retried). The latch and the position go back
to no value (assumption 13). -/
def endCommand (failure : Option E) (s : State E) : State E :=
  { s with run := .idle, cmd := none, pos := .noValue, result := resultOf failure }

/-- The end of a reset: IDLE and OK (R201), or DEAD and `FAIL(e)` (R179). -/
def endReset (failure : Option E) (s : State E) : State E :=
  { s with
    run := if failure.isNone then .idle else .dead
    cmd := none
    pos := .noValue
    result := resultOf failure }

/-- The end of a micro-operation run by itself: its success or failure is what it returns (R113, assumption 10). -/
def endEngine (failure : Option E) (s : State E) : State E := { s with engineReturn := resultOf failure }

end Sys2Proof.Machine
end

