-- ==== Sys2Proof/Machine/Operands.lean ====
section
/-! DEFINITION. From a command's operands to (address, value) pairs: 30_encoding.md R84 to R89, and the plans of
41_register_commands.md R140 to R149. -/

namespace Sys2Proof.Machine

open Sys2Proof.Config

/-- One register write of a plan: address, then value (R140). -/
abbrev Pair := Byte × Byte

/-- The tone fine register, `2 * ch`; the rough one is the next address (R84). -/
def toneFineAddr (ch : Channel) : Byte := 2 * selOfChannel ch

/-- The tone rough register, `2 * ch + 1` (R84). -/
def toneRoughAddr (ch : Channel) : Byte := 2 * selOfChannel ch + 1

/-- The level register, `0x8 + ch` (R84). -/
def levelAddr (ch : Channel) : Byte := 0x8 + selOfChannel ch

/-- The I/O port register: A at 0xE, B at 0xD, the alias of the envelope shape (R53, R84). -/
def portAddr : IoPort → Byte
  | .a => 0xE
  | .b => 0xD

/-- The noise register (R51). -/
def noiseAddr : Byte := 0x6

/-- The mixer register (R51). -/
def mixerAddr : Byte := 0x7

/-- The envelope period registers (R51). -/
def envFineAddr : Byte := 0xB

/-- See `envFineAddr`. -/
def envRoughAddr : Byte := 0xC

/-- The envelope shape register (R51). -/
def envShapeAddr : Byte := 0xD

/-- The byte of `Fixed(n)`: masked, not refused (R86). -/
def fixedLevelByte (n : Byte) : Byte := n &&& levelMask

/-- The byte of an envelope shape (R88). -/
def shapeByte (s : Byte) : Byte := s &&& shapeMask

/-- A 16-bit quantity in two registers, the low byte first (R57, R85). -/
def periodPlan (fine rough : Byte) (f : Period) : List Pair := [(fine, lowByte f), (rough, highByte f)]

/-- The plan of `clear_all_registers`: `(k, 0x00)` for `k` = 0 .. 15, ascending (R141). -/
def clearPlan : List Pair := (List.range nReg).map fun k => (BitVec.ofNat 8 k, 0x00)

/-- `Plan(cmd)` (R140): a pure function of the operands. The micro-operations and the reset are no commands and have none. -/
def plan : Instr → List Pair
  | .clr => clearPlan
  | .wreg address value => [(address, value)]
  | .tone ch frequency => periodPlan (toneFineAddr ch) (toneRoughAddr ch) frequency
  | .noise frequency => [(noiseAddr, frequency)]
  | .mix settings => [(mixerAddr, settings)]
  | .lvlf ch n => [(levelAddr ch, fixedLevelByte n)]
  | .lvle ch => [(levelAddr ch, levelEnvelope)]
  | .envf frequency => periodPlan envFineAddr envRoughAddr frequency
  | .envs shape => [(envShapeAddr, shapeByte shape)]
  | .iow port data => [(portAddr port, data)]
  | .uina => []
  | .uadr => []
  | .uwrt => []
  | .udrv _ => []
  | .utxn _ _ => []
  | .reset => []

/-- A command of the public surface: what has a plan (R96, R140). -/
def isCommand (i : Instr) : Bool := !(plan i).isEmpty

/-- The micro-events of a plan: one transaction per pair, in order (R140, R153). -/
def planEvents (p : List Pair) : List Event := p.flatMap fun q => txnEvents q.1 q.2

end Sys2Proof.Machine
end

