-- ==== Sys2Proof/Machine/Flags.lean ====
section
/-! DEFINITION. What a host can test (10_state.md R34) and the flags inside the bytes of the mixer and the shape
register (30_encoding.md R87, R88). The block has no condition codes (R34). -/

namespace Sys2Proof.Machine

variable {E : Type}

/-- `ready`: a command can be taken (R34). -/
def State.ready (s : State E) : Bool := s.run == .idle

/-- `busy`: a command or a reset is running (R34). -/
def State.busy (s : State E) : Bool := s.run == .busy || s.run == .resetting

/-- `Mode()` of the state: never stored (R25). -/
def State.mode (s : State E) : BusMode := s.lines.mode

/-- A reset request is honoured in OFF, DEAD and IDLE, and has no move in BUSY and RESETTING (R200). -/
def State.takesReset (s : State E) : Bool := !s.busy

/-- The eight flags of a mixer byte (R87). -/
inductive MixerFlag where
  | disableToneA
  | disableToneB
  | disableToneC
  | disableNoiseA
  | disableNoiseB
  | disableNoiseC
  | routeIoA
  | routeIoB
deriving DecidableEq, Repr

/-- The bit of a mixer flag (R87; bits 1 to 6 are the spec's decision D13). -/
def mixerBit : MixerFlag → Nat
  | .disableToneA => 0
  | .disableToneB => 1
  | .disableToneC => 2
  | .disableNoiseA => 3
  | .disableNoiseB => 4
  | .disableNoiseC => 5
  | .routeIoA => 6
  | .routeIoB => 7

/-- A mixer flag is set when its bit is 1 (R87). -/
def mixerFlag (m : Byte) (f : MixerFlag) : Bool := m.getLsbD (mixerBit f)

/-- The four flags of a shape byte (R88). -/
inductive ShapeFlag where
  | hold
  | alternate
  | attack
  | continues
deriving DecidableEq, Repr

/-- The bit of a shape flag (R88; the spec's decision D14). -/
def shapeBit : ShapeFlag → Nat
  | .hold => 0
  | .alternate => 1
  | .attack => 2
  | .continues => 3

/-- A shape flag is set when its bit is 1 (R88). -/
def shapeFlag (s : Byte) (f : ShapeFlag) : Bool := s.getLsbD (shapeBit f)

end Sys2Proof.Machine
end

