-- ==== Sys2Proof/Machine/Sequencer.lean ====
section
/-! DEFINITION. The sequencer: a command as the blocking call of 41_register_commands.md R140, the reset sequence of
70_reset_and_hazards.md R201, and both of them one micro-event a step, with the position of 10_state.md R29. -/

namespace Sys2Proof.Machine

open Sys2Proof.Config

variable {E : Type}

/-- What an operation answers. -/
abbrev Outcome (E : Type := ErrVal) := Host.Outcome (State E) Fault Refusal

/-! ### Blocking calls -/

/-- Acceptance (R90): the command is latched, `run <- BUSY`, `(k, s) <- (0, 0)`. -/
def accept (i : Instr) (s : State E) : State E := { s with run := .busy, cmd := some i, pos := .step 0 0 }

/-- `Run(cmd)` (R140): every transaction of the plan in order, stopping at the first failure. -/
def runAccepted (i : Instr) (s : State E) : State E :=
  let r := runEvents (planEvents (plan i)) (accept i s)
  endCommand r.2 r.1

/-- A command word's meaning: run to its end when IDLE; in any other run state it is not seen and nothing changes
(R90; 93_implementation_defined.md I11, I12). -/
def runCommand (i : Instr) (s : State E) : Outcome E :=
  if s.ready then .next (runAccepted i s) else .next s

/-- The reset request is honoured: `run <- RESETTING`, position `r` = 0 (R201, R29). -/
def beginReset (s : State E) : State E := { s with run := .resetting, pos := .resetStep 0 }

/-- The reset sequence to its end: exactly `enter_inactive_mode()` (R201, R179). -/
def runReset (s : State E) : State E :=
  let r := runEvents inactiveEvents (beginReset s)
  endReset r.2 r.1

/-- The reset request's meaning: honoured in OFF, DEAD and IDLE; in BUSY and RESETTING it has no move (R200). -/
def requestReset (s : State E) : Outcome E :=
  if s.takesReset then .next (runReset s) else .next s

/-- A micro-operation run by itself: its events, on the lines as they are (R112, R129), and what it returns. -/
def runEngine (evs : List Event) (s : State E) : Outcome E :=
  let r := runEvents evs s
  .next (endEngine r.2 r.1)

/-! ### One micro-event a step -/

/-- The position after a micro-event that succeeded (R29): the next step, the next transaction, or the end with OK. `n` is
the plan's length. -/
def advance (n k j : Nat) (s : State E) : State E :=
  if j + 1 < nStep then { s with pos := .step k (j + 1) }
  else if k + 1 < n then { s with pos := .step (k + 1) 0 }
  else endCommand none s

/-- One micro-event of a latched command at position `(k, j)` (R29, R172). -/
def busyStep (i : Instr) (k j : Nat) (s : State E) : Outcome E :=
  match (plan i)[k]? with
  | none => .fault .positionOutOfRange
  | some q =>
    match (txnEvents q.1 q.2)[j]? with
    | none => .fault .positionOutOfRange
    | some ev =>
      match issue ev s with
      | (s1, none) => .next (advance (plan i).length k j s1)
      | (s1, some e) => .next (endCommand (some e) s1)

/-- The position after a successful pin set of the reset sequence (R201). -/
def advanceReset (r : Nat) (s : State E) : State E :=
  if r + 1 < inactiveEvents.length then { s with pos := .resetStep (r + 1) } else endReset none s

/-- One pin set of the reset sequence at position `r` (R201, R179). -/
def resettingStep (r : Nat) (s : State E) : Outcome E :=
  match inactiveEvents[r]? with
  | none => .fault .positionOutOfRange
  | some ev =>
    match issue ev s with
    | (s1, none) => .next (advanceReset r s1)
    | (s1, some e) => .next (endReset (some e) s1)

/-- One step of the sequencer (R13 a): the next micro-event of what is running; nothing when nothing is. -/
def sequencerStep (s : State E) : Outcome E :=
  match s.run with
  | .busy =>
    match s.cmd, s.pos with
    | some i, .step k j => busyStep i k j s
    | _, _ => .fault .noValueRead
  | .resetting =>
    match s.pos with
    | .resetStep r => resettingStep r s
    | _ => .fault .noValueRead
  | .off => .next s
  | .dead => .next s
  | .idle => .next s

end Sys2Proof.Machine
end

