-- ==== Sys2Proof/Machine/Commands.lean ====
section
/-! DEFINITION. The meanings of the public commands (41_register_commands.md R141 to R149): each runs its plan
(`Sys2Proof.Machine.plan`) as R140 says. -/

namespace Sys2Proof.Machine

variable {E : Type}

/-- `clear_all_registers()` (R141): sixteen transactions, 0x00 to 0x0 .. 0xF in ascending order. -/
def execClr (s : State E) : Outcome E := runCommand (.clr) s

/-- `set_register_value(address, value)` (R142): one transaction, the address unmasked (R62). -/
def execWreg (address value : Byte) (s : State E) : Outcome E := runCommand (.wreg address value) s

/-- `set_channel_frequency(channel, frequency)` (R143): the fine register, then the rough one. -/
def execTone (ch : Channel) (frequency : Period) (s : State E) : Outcome E := runCommand (.tone ch frequency) s

/-- `set_noise(frequency)` (R144): register 0x6, unmasked. -/
def execNoise (frequency : Byte) (s : State E) : Outcome E := runCommand (.noise frequency) s

/-- `set_mixer_settings(settings)` (R145): register 0x7, all eight flags at once. -/
def execMix (settings : Byte) (s : State E) : Outcome E := runCommand (.mix settings) s

/-- `set_channel_level(channel, Fixed(n))` (R146): the level register, `n` masked to four bits. -/
def execLvlf (ch : Channel) (n : Byte) (s : State E) : Outcome E := runCommand (.lvlf ch n) s

/-- `set_channel_level(channel, Envelope)` (R146): the level register, 0x10. -/
def execLvle (ch : Channel) (s : State E) : Outcome E := runCommand (.lvle ch) s

/-- `set_envelope_frequency(frequency)` (R147): register 0xB, then 0xC. -/
def execEnvf (frequency : Period) (s : State E) : Outcome E := runCommand (.envf frequency) s

/-- `set_envelope_shape(shape)` (R148): register 0xD, masked to four bits. -/
def execEnvs (shape : Byte) (s : State E) : Outcome E := runCommand (.envs shape) s

/-- `set_io_port_data(port, data)` (R149): register 0xE for A, 0xD for B, unmasked. -/
def execIow (port : IoPort) (data : Byte) (s : State E) : Outcome E := runCommand (.iow port data) s

end Sys2Proof.Machine
end

