-- ==== Sys2Proof/Machine/Construction.lean ====
section
/-! DEFINITION. The meaning of the reset request (70_reset_and_hazards.md R200 to R202, 60_exceptions.md R179). -/

namespace Sys2Proof.Machine

variable {E : Type}

/-- Construction: `enter_inactive_mode()`, then IDLE and OK, or DEAD and `FAIL(e)` (R201). -/
def execReset (s : State E) : Outcome E := requestReset s

end Sys2Proof.Machine
end

