-- ==== Sys2Proof/Machine/Engine.lean ====
section
/-! DEFINITION. The meanings of the engine's micro-operations run by themselves (40_bus_engine.md R113 to R116, R124).
They write the lines they set, the trace, what the chip makes of it, and what they return; they check no precondition (R129)
and touch neither the run state nor the result (R30; assumptions 10 and 11). -/

namespace Sys2Proof.Machine

variable {E : Type}

/-- `enter_inactive_mode()` (R113). -/
def execUina (s : State E) : Outcome E := runEngine inactiveEvents s

/-- `enter_address_mode()` (R114). -/
def execUadr (s : State E) : Outcome E := runEngine addressEvents s

/-- `enter_write_mode()` (R115). -/
def execUwrt (s : State E) : Outcome E := runEngine writeEvents s

/-- `drive_byte(value)` (R116). -/
def execUdrv (value : Byte) (s : State E) : Outcome E := runEngine (driveEvents value) s

/-- `write_register(address, value)` (R124). -/
def execUtxn (address value : Byte) (s : State E) : Outcome E := runEngine (txnEvents address value) s

end Sys2Proof.Machine
end

