-- ==== Sys2Proof/Machine/Dispatch.lean ====
section
/-! DEFINITION. One arm per operation: a direct call of its meaning. -/

namespace Sys2Proof.Machine

def exec (i : Instr) (s : State) : Host.Outcome State Fault Refusal :=
  match i with
  -- public commands (41_register_commands.md)
  | .clr => Sys2Proof.Machine.execClr s
  | .wreg address value => Sys2Proof.Machine.execWreg address value s
  | .tone ch frequency => Sys2Proof.Machine.execTone ch frequency s
  | .noise frequency => Sys2Proof.Machine.execNoise frequency s
  | .mix settings => Sys2Proof.Machine.execMix settings s
  | .lvlf ch n => Sys2Proof.Machine.execLvlf ch n s
  | .lvle ch => Sys2Proof.Machine.execLvle ch s
  | .envf frequency => Sys2Proof.Machine.execEnvf frequency s
  | .envs shape => Sys2Proof.Machine.execEnvs shape s
  | .iow port data => Sys2Proof.Machine.execIow port data s
  -- micro-operations (40_bus_engine.md)
  | .uina => Sys2Proof.Machine.execUina s
  | .uadr => Sys2Proof.Machine.execUadr s
  | .uwrt => Sys2Proof.Machine.execUwrt s
  | .udrv value => Sys2Proof.Machine.execUdrv value s
  | .utxn address value => Sys2Proof.Machine.execUtxn address value s
  -- reset (70_reset_and_hazards.md)
  | .reset => Sys2Proof.Machine.execReset s

end Sys2Proof.Machine
end

