-- ==== Sys2Proof/Machine/Fetch.lean ====
section
/-! DEFINITION. What the next step does: the sequencer's micro-event while something is running, otherwise the host's next
move (00_scope.md R16, 30_encoding.md R90, R94, 70_reset_and_hazards.md R200, R206). -/

namespace Sys2Proof.Machine

variable {E : Type}

/-- What a step is about to do. -/
inductive Fetched (E : Type) where
  /-- One micro-event of what is running. -/
  | microEvent
  /-- Nothing: the host does nothing, or its word is refused or not seen. -/
  | nothing (s : State E)
  /-- The operation runs to its end, from the state given. -/
  | run (i : Instr) (s : State E)
  /-- A command is accepted (R90). -/
  | accepted (i : Instr) (s : State E)
  /-- A reset request is honoured (R201). -/
  | resetRequested (s : State E)
deriving DecidableEq, Repr

/-- Whether a word on the port of its format is seen: the reset line outside BUSY and RESETTING (R200), the command port (R90)
and the engine (assumption 10) when IDLE. -/
def seen : Encoded → State E → Bool
  | .req1 _, s => s.takesReset
  | .cmd32 _, s => s.ready
  | .ctrl2 _, s => s.ready
  | .data8 _, s => s.ready
  | .txn16 _, s => s.ready

/-- The host's move, in the state with the move taken off the agenda. A word that is not seen, or that the decoder refuses,
changes nothing (R90, R94; assumption 14). -/
def takeMove (m : HostMove) (s : State E) : Fetched E :=
  match m with
  | .call e =>
    if seen e s then
      match decode e with
      | .ok i => .run i s
      | .error _ => .nothing s
    else .nothing s
  | .present w =>
    if seen (.cmd32 w) s then
      match decode (.cmd32 w) with
      | .ok i => .accepted i s
      | .error _ => .nothing s
    else .nothing s
  | .requestReset => if s.takesReset then .resetRequested s else .nothing s
  | .release => .nothing s

/-- The agenda after its first move. -/
def dropMove (s : State E) : State E := { s with env := { s.env with agenda := s.env.agenda.tail } }

/-- What the next step does. While BUSY or RESETTING the host has no move (R90, R200; assumption 6). -/
def fetch (s : State E) : Fetched E :=
  if s.busy then .microEvent
  else
    match s.env.agenda with
    | [] => .nothing s
    | m :: _ => takeMove m (dropMove s)

/-- The word placed as the host's next move. Where the word would not be seen there, the controller is also made IDLE with
nothing running, so that the next step takes it (assumption 7). -/
def presentNext (e : Encoded) (s : State E) : State E :=
  let s1 := { s with env := { s.env with agenda := .call e :: s.env.agenda } }
  if seen e s then s1 else { s1 with run := .idle, cmd := none, pos := .noValue }

end Sys2Proof.Machine
end

