-- ==== Sys2Proof/Machine/Relation.lean ====
section
/-! DEFINITION. The step relation over any type of error values (10_state.md R31), and with its parameters as arguments
(00_scope.md R14). `exec` and `step`, whose types the host fixes, are `execOf` and `stepOf` at `Config.ErrVal`
(`Sys2Proof.Laws.exec_eq`, `Sys2Proof.Laws.step_eq`). -/

namespace Sys2Proof.Machine

variable {E : Type}

/-- The meaning of every operation (R96), over any type of error values. -/
def execOf (i : Instr) (s : State E) : Outcome E :=
  match i with
  | .clr => execClr s
  | .wreg address value => execWreg address value s
  | .tone ch frequency => execTone ch frequency s
  | .noise frequency => execNoise frequency s
  | .mix settings => execMix settings s
  | .lvlf ch n => execLvlf ch n s
  | .lvle ch => execLvle ch s
  | .envf frequency => execEnvf frequency s
  | .envs shape => execEnvs shape s
  | .iow port data => execIow port data s
  | .uina => execUina s
  | .uadr => execUadr s
  | .uwrt => execUwrt s
  | .udrv value => execUdrv value s
  | .utxn address value => execUtxn address value s
  | .reset => execReset s

/-- One step, with `ex` giving operations their meaning: a micro-event of what is running (R13 a), or the host's next move (R16). A
called operation runs to its end in one step, as the source's blocking call does (R63; assumption 5); a presented command or a
requested reset only begins, and the steps after it are its micro-events. -/
def stepBy (ex : Instr → State E → Outcome E) (s : State E) : Outcome E :=
  match fetch s with
  | .microEvent => sequencerStep s
  | .nothing s1 => .next s1
  | .run i s1 => ex i s1
  | .accepted i s1 => .next (accept i s1)
  | .resetRequested s1 => .next (beginReset s1)

/-- One step, over any type of error values. -/
def stepOf (s : State E) : Outcome E := stepBy execOf s

/-- An outcome as R14 has it: the next state, and the parameters that no step has taken yet. -/
def withoutReturn : Outcome E → Host.Outcome (Block E × Env E) Fault Refusal
  | .next s => .next (s.toBlock, s.env)
  | .fault f => .fault f
  | .refused r => .refused r

/-- One step with its parameters as arguments (R14): the type of error values, the pin environment's answers, the transient responses
and `CHIP_ADDR_DECODE` are given in `p`, with the host's moves (R16), and the state is R14's alone. No step reads the model's own
`engineReturn` (`Sys2Proof.Laws.stepOf_eq_stepUnder`). -/
def stepUnder (p : Env E) (b : Block E) : Host.Outcome (Block E × Env E) Fault Refusal :=
  withoutReturn (stepOf { toBlock := b, engineReturn := .none, env := p })

end Sys2Proof.Machine
end

