-- ==== Sys2Proof/Machine/Step.lean ====
section
/-! DEFINITION. One step of the machine the host runs. -/

namespace Sys2Proof.Machine

/-- One step: `stepBy` with the arms of `exec`. -/
def step (s : State) : Host.Outcome State Fault Refusal := stepBy exec s

/-- `s` with a row's word, in the table's numbering, as the host's next move; a width no format has leaves `s` as it is. -/
def State.withFetchWord (s : State) (nbits w : Nat) : State :=
  match tableForm nbits w with
  | none => s
  | some e => presentNext e s

end Sys2Proof.Machine
end

