-- ==== Sys2Proof/Safety.lean ====
section
/-! DEFINITION. What counts as a safe run, in the terms the claims use: the invariants of 10_state.md R38 and
40_bus_engine.md R125, what a run leaves behind, and the relations of the two-run claims. -/

namespace Sys2Proof.Safety

open Sys2Proof.Config
open Sys2Proof.Machine

variable {E : Type}

/-! ### Traces -/

/-- The trace entry of a micro-event that succeeded. -/
def doneEntry : Event → TraceEntry E
  | .pinSet n b => .set n b
  | .wait t => .waited t

/-- The trace of a list of micro-events that all succeeded, newest first. -/
def doneEntries (evs : List Event) : List (TraceEntry E) := (evs.map doneEntry).reverse

/-- Whether a micro-event is a pin set: the ones that can fail (R171). -/
def isPinSet : Event → Bool
  | .pinSet _ _ => true
  | .wait _ => false

/-- The number of pin sets of a list. -/
def pinCount (evs : List Event) : Nat := evs.countP isPinSet

/-- The number of waits of a list. -/
def waitCount (evs : List Event) : Nat := evs.countP fun ev => !isPinSet ev

/-- The least time of a list in microseconds, from its waits alone (R153, R225). -/
def leastTime : List Event → Nat
  | [] => 0
  | .wait t :: evs => t + leastTime evs
  | .pinSet _ _ :: evs => leastTime evs

/-- The level a trace leaves on a line: that of the last pin set on it, X if that failed or if there is none (R38.5). -/
def levelOf (n : Line) : List (TraceEntry E) → Level
  | [] => .x
  | .set m b :: es => if m = n then Level.ofBool b else levelOf n es
  | .setFailed m _ _ :: es => if m = n then .x else levelOf n es
  | .waited _ :: es => levelOf n es

/-- The line levels after a list of micro-events that all succeeded. -/
def linesAfter : List Event → Lines → Lines
  | [], l => l
  | .pinSet n b :: evs, l => linesAfter evs (l.set n (Level.ofBool b))
  | .wait _ :: evs, l => linesAfter evs l

/-! ### Line levels -/

/-- The bus in `Inactive` with a byte standing on the data lines: what a transaction that did not fail leaves (R124). -/
def quietLines (v : Byte) : Lines :=
  ⟨.low, .low, Level.ofBool (v.getLsbD 0), Level.ofBool (v.getLsbD 1), Level.ofBool (v.getLsbD 2), Level.ofBool (v.getLsbD 3),
    Level.ofBool (v.getLsbD 4), Level.ofBool (v.getLsbD 5), Level.ofBool (v.getLsbD 6), Level.ofBool (v.getLsbD 7)⟩

/-- The data line of a bit (R23). -/
def dataLine : Nat → Line
  | 0 => .d0
  | 1 => .d1
  | 2 => .d2
  | 3 => .d3
  | 4 => .d4
  | 5 => .d5
  | 6 => .d6
  | _ => .d7

/-- Both control levels are 0 or 1 (R72). -/
def ControlKnown (l : Lines) : Prop := l.bdir ≠ .x ∧ l.bc1 ≠ .x

/-- The control levels that stand when the next micro-event of a transaction is number `j`: the column `{BDIR,BC1}` of the step
table (R125), as far as it holds for every start (R117, R129). -/
def ControlAt (j : Nat) (l : Lines) : Prop :=
  (j = 1 → l.bdir = .high) ∧
  (2 ≤ j ∧ j ≤ 11 → l.bdir = .high ∧ l.bc1 = .high) ∧
  (j = 12 → l.bdir = .low ∧ l.bc1 = .high) ∧
  (13 ≤ j ∧ j ≤ 22 → l.bdir = .low ∧ l.bc1 = .low) ∧
  (23 ≤ j ∧ j ≤ 25 → l.bdir = .high ∧ l.bc1 = .low) ∧
  (26 ≤ j ∧ j ≤ 27 → l.bdir = .low ∧ l.bc1 = .low)

/-- The data levels that stand when the next micro-event of `write_register(a, v)` is number `j`: the last column of the
step table (R125, R126), bit by bit. -/
def DataAt (a v : Byte) (j : Nat) (l : Lines) : Prop :=
  ∀ i, i < 8 →
    (i + 3 ≤ j ∧ j ≤ i + 14 → l.get (dataLine i) = Level.ofBool (a.getLsbD i)) ∧
    (i + 15 ≤ j → l.get (dataLine i) = Level.ofBool (v.getLsbD i))

/-! ### Invariants -/

/-- R38.5: each line has the level its last pin set left, X if it failed or there was none. -/
def LinesFollowTrace (s : State E) : Prop := ∀ n, s.lines.get n = levelOf n s.trace

/-- R38.2, R38.3, R125, R37: while BUSY a command is latched, the position names a micro-event of its plan, and the lines stand as
the step table says; while RESETTING the position names a pin set of the reset; otherwise latch and position have no value. -/
def PositionOk (s : State E) : Prop :=
  match s.run with
  | .busy =>
    ∃ i k j q, s.cmd = some i ∧ s.pos = .step k j ∧ (plan i)[k]? = some q ∧ j < nStep ∧
      ControlAt j s.lines ∧ DataAt q.1 q.2 j s.lines
  | .resetting => ∃ r, s.pos = .resetStep r ∧ r < 2 ∧ (r = 1 → s.lines.bdir = .low)
  | .off => s.cmd = none ∧ s.pos = .noValue
  | .dead => s.cmd = none ∧ s.pos = .noValue
  | .idle => s.cmd = none ∧ s.pos = .noValue

/-- A move a host of this hardware can make: no engine micro-operation by itself (R96, 90_conflicts.md C4). -/
def isHostMove : HostMove → Bool
  | .call (.ctrl2 _) => false
  | .call (.data8 _) => false
  | .call (.txn16 _) => false
  | .call (.cmd32 _) => true
  | .call (.req1 _) => true
  | .present _ => true
  | .requestReset => true
  | .release => true

/-- Every move to come is one a host can make. -/
def HostDriven (s : State E) : Prop := ∀ m ∈ s.env.agenda, isHostMove m = true

/-- R38.1: IDLE with result OK has the bus in `Inactive`. -/
def InactiveAfterOk (s : State E) : Prop := s.run = .idle → s.result = .ok → s.mode = .inactive

/-- R37, R179: OFF only before any reset has ended; DEAD only after a reset that failed, with an unknown mode. -/
def OutcomeOk (s : State E) : Prop :=
  (s.run = .off → s.result = .none) ∧
  (s.run = .dead → s.mode = .unknown ∧ ∃ e, s.result = .fail e)

/-- R170: an error value reported is one the pin environment gave. -/
def ErrorFromPins (s : State E) : Prop := ∀ e, s.result = .fail e → ∃ n b, .setFailed n b e ∈ s.trace

/-- The chip's registers are in canonical form. -/
def RegistersOk (s : State E) : Prop := s.chip.regs.wf = true

/-! ### Runs of commands -/

/-- R72: acting on the transient exit of step 1 would change nothing: what stands on the bus is what the latched register
holds already, or nothing is known anyway. -/
def InSync (s : State E) : Prop := commit s.env.addrDecode s.chip s.lines.dataByte = s.chip

/-- IDLE, and the next `n` transactions' pin sets are answered Ok. -/
def WillRun (n : Nat) (s : State E) : Prop := s.run = .idle ∧ answersOk (24 * n) s.env.pins = true

/-- `WillRun`, from a start that R72 speaks of: known control levels, and in sync. -/
def WillRunInSync (n : Nat) (s : State E) : Prop := WillRun n s ∧ ControlKnown s.lines ∧ InSync s

/-- The byte a plan leaves in register `r`: that of its last pair with this address. -/
def planned (p : List Pair) (r : Nat) : Option Byte := (p.reverse.find? fun q => q.1.toNat == r).map Prod.snd

/-- The controller's side of a command with plan `p` that ended OK (R140): run, result, lines, trace, answers
and transient choices taken (one exit from `Write` a transaction, R212); and everything that a command does not write. `last` is the plan's last pair. -/
structure EndedOk (p : List Pair) (last : Pair) (s t : State E) : Prop where
  run : t.run = .idle
  result : t.result = .ok
  lines : t.lines = quietLines last.2
  latch : t.chip.al = .byte last.1
  trace : t.trace = doneEntries (planEvents p) ++ s.trace
  pins : t.env.pins = s.env.pins.drop (24 * p.length)
  transients : s.mode = .inactive → t.env.transients = s.env.transients.drop p.length
  engineReturn : t.engineReturn = s.engineReturn
  addrDecode : t.env.addrDecode = s.env.addrDecode
  agenda : t.env.agenda = s.env.agenda

/-- The whole effect of a command with plan `p` that ended OK, on both sides: the controller's, and every chip register (R72,
R140): the plan's, and no other. -/
structure WrotePlan (p : List Pair) (last : Pair) (s t : State E) : Prop where
  ended : EndedOk p last s t
  written : ∀ r v, planned p r = some v → t.chip.regs.read r = .byte v
  others : ∀ r, planned p r = none → t.chip.regs.read r = s.chip.regs.read r

/-- What no operation on the lines touches: everything but the lines, the chip, the trace and the inputs taken. -/
structure OnlyBusChanged (s t : State E) : Prop where
  run : t.run = s.run
  cmd : t.cmd = s.cmd
  pos : t.pos = s.pos
  result : t.result = s.result
  addrDecode : t.env.addrDecode = s.env.addrDecode
  agenda : t.env.agenda = s.env.agenda

/-- A mode entry that sets BDIR to `x` and then BC1 to `y`, with its two failures. -/
def ModeEntry (i : Instr) (x y : Bool) (m : BusMode) : Prop :=
  ∀ s : State,
    (answersOk 2 s.env.pins = true →
      ∃ t, exec i s = .next t ∧ t.lines = (s.lines.set .bdir (Level.ofBool x)).set .bc1 (Level.ofBool y) ∧ t.mode = m ∧
        t.trace = .set .bc1 y :: .set .bdir x :: s.trace ∧ t.engineReturn = .ok ∧
        t.env.pins = s.env.pins.drop 2 ∧ OnlyBusChanged s t) ∧
    (∀ e, s.env.pins.head = .err e →
      ∃ t, exec i s = .next t ∧ t.lines = s.lines.set .bdir .x ∧ t.lines.bc1 = s.lines.bc1 ∧
        t.trace = .setFailed .bdir x e :: s.trace ∧ t.engineReturn = .fail e ∧
        t.env.pins = s.env.pins.drop 1 ∧ OnlyBusChanged s t) ∧
    (∀ e, s.env.pins.head = .ok → (s.env.pins.drop 1).head = .err e →
      ∃ t, exec i s = .next t ∧ t.lines = (s.lines.set .bdir (Level.ofBool x)).set .bc1 .x ∧
        t.trace = .setFailed .bc1 y e :: .set .bdir x :: s.trace ∧ t.engineReturn = .fail e ∧
        t.env.pins = s.env.pins.drop 2 ∧ OnlyBusChanged s t)

/-! ### Relations between runs -/

/-- Everything but the chip-side observer and its parameters agrees: the controller's own state, and what it is given. -/
structure SameController (s t : State E) : Prop where
  lines : s.lines = t.lines
  run : s.run = t.run
  cmd : s.cmd = t.cmd
  pos : s.pos = t.pos
  result : s.result = t.result
  trace : s.trace = t.trace
  engineReturn : s.engineReturn = t.engineReturn
  pins : s.env.pins = t.env.pins
  agenda : s.env.agenda = t.env.agenda

/-- Two outcomes stop alike, or go on to related states. -/
def OutcomesRelated (R : State E → State E → Prop) : Outcome E → Outcome E → Prop
  | .next s, .next t => R s t
  | .fault f, .fault g => f = g
  | .refused f, .refused g => f = g
  | _, _ => False

/-! ### Renaming error values, also into another type (R31) -/

variable {A B : Type}

/-- An answer with its error value renamed. -/
def mapAnswer (f : A → B) : Answer A → Answer B
  | .ok => .ok
  | .err e => .err (f e)

/-- A result with its error value renamed. -/
def mapResult (f : A → B) : Result A → Result B
  | .none => .none
  | .ok => .ok
  | .fail e => .fail (f e)

/-- A trace entry with its error value renamed. -/
def mapEntry (f : A → B) : TraceEntry A → TraceEntry B
  | .set n b => .set n b
  | .setFailed n b e => .setFailed n b (f e)
  | .waited t => .waited t

/-- A script of answers with every error value renamed. -/
def mapPins (f : A → B) (p : Script (Answer A)) : Script (Answer B) := ⟨p.upcoming.map (mapAnswer f), mapAnswer f p.thereafter⟩

/-- A state with every error value in it renamed. -/
def mapErrors (f : A → B) (s : State A) : State B where
  lines := s.lines
  run := s.run
  cmd := s.cmd
  pos := s.pos
  result := mapResult f s.result
  chip := s.chip
  trace := s.trace.map (mapEntry f)
  engineReturn := mapResult f s.engineReturn
  env := ⟨mapPins f s.env.pins, s.env.transients, s.env.addrDecode, s.env.agenda⟩

/-- An outcome with every error value in it renamed. -/
def mapOutcome (f : A → B) : Outcome A → Outcome B
  | .next s => .next (mapErrors f s)
  | .fault r => .fault r
  | .refused r => .refused r

end Sys2Proof.Safety
end

