-- ==== Sys2Proof/Certificates/Slice0/Obligations.lean ====
section
/-! DEFINITION. The statements for the provers. Each docstring names the rule of spec/ it formalises, and the spec's own
decision or the log entry where it rests on one. -/

open Sys2Proof
open Sys2Proof.Config
open Sys2Proof.Machine
open Sys2Proof.Safety

/-! ## Encodings -/

/-- Decoding an encoded well-formed operation gives it back, every operand at every value (30_encoding.md section 1, section 3).
The command word is the spec's own decision D7. -/
def Obligations.DecodeEncodeAgree : Prop := ∀ i : Instr, wellFormed i = true → decode (encode i) = .ok i

/-- A word that decodes is the one spelling of a well-formed operation: no two words mean the same (30_encoding.md section 3, the
spec's inference "No two rows match the same word"). -/
def Obligations.DecodedWordIsTheOneSpelling : Prop :=
  ∀ (e : Encoded) (i : Instr), decode e = .ok i → wellFormed i = true ∧ encode i = e

/-- Exactly the reserved command words are refused (30_encoding.md section 3: the conditions of R92, gathered by R94; decisions
D7 and D8). -/
def Obligations.ExactlyTheReservedWordsAreRefused : Prop :=
  ∀ (op sel : Byte) (imm : Period),
    (∃ r, decode (.cmd32 (commandWord op sel imm)) = .error r) ↔
      9 ≤ op.toNat ∨
      ((op = 2 ∨ op = 5) ∧ 3 ≤ sel.toNat) ∨
      (op = 8 ∧ 2 ≤ sel.toNat) ∨
      ((op = 0 ∨ op = 3 ∨ op = 4 ∨ op = 6 ∨ op = 7) ∧ sel ≠ 0) ∨
      (op = 0 ∧ imm ≠ 0) ∨
      ((op = 1 ∨ op = 3 ∨ op = 4 ∨ op = 8) ∧ 0x100 ≤ imm.toNat) ∨
      (op = 5 ∧ 0x101 ≤ imm.toNat) ∨
      (op = 7 ∧ 0x10 ≤ imm.toNat)

/-- A few words of V14 and V15, written out (95_test_vectors.md; encodings of 30_encoding.md section 3). -/
def Obligations.SpelledWordsDecode : Prop :=
  decode (.cmd32 0x00000000) = .ok .clr ∧
  decode (.cmd32 0x01070038) = .ok (.wreg 0x07 0x38) ∧
  decode (.cmd32 0x0202FFFF) = .ok (.tone .c 0xFFFF) ∧
  decode (.cmd32 0x0300001F) = .ok (.noise 0x1F) ∧
  decode (.cmd32 0x04000081) = .ok (.mix 0x81) ∧
  decode (.cmd32 0x050200FF) = .ok (.lvlf .c 255) ∧
  decode (.cmd32 0x05010100) = .ok (.lvle .b) ∧
  decode (.cmd32 0x0600ABCD) = .ok (.envf 0xABCD) ∧
  decode (.cmd32 0x0700000E) = .ok (.envs 0x0E) ∧
  decode (.cmd32 0x0801005C) = .ok (.iow .b 0x5C) ∧
  decode (.ctrl2 0b11) = .ok .uadr ∧
  decode (.txn16 0x0738) = .ok (.utxn 0x07 0x38) ∧
  decode (.ctrl2 0b01) = .error .reservedMode

/-! ## Lines and micro-events -/

/-- The bus mode as a function of the two control levels, on all nine pairs of levels (10_state.md R24; `Unlisted` and `Unknown`
are the spec's decisions D3 and D4). -/
def Obligations.BusModeOfControlLevels : Prop :=
  ∀ l : Lines,
    (l.bdir = .low → l.bc1 = .low → l.mode = .inactive) ∧
    (l.bdir = .high → l.bc1 = .low → l.mode = .write) ∧
    (l.bdir = .high → l.bc1 = .high → l.mode = .addressLatch) ∧
    (l.bdir = .low → l.bc1 = .high → l.mode = .unlisted) ∧
    (l.bdir = .x ∨ l.bc1 = .x → l.mode = .unknown)

/-- One pin set (40_bus_engine.md R110): answered Ok, the line has the level asked for and nothing fails; answered Err(e), the line
is X (decision D4) and `e` is raised. No other line changes, one answer is taken, the event joins the trace, and on a data line the
chip is not touched. -/
def Obligations.PinSetWritesItsLineOnly : Prop :=
  ∀ (n : Line) (b : Bool) (s : State),
    (s.env.pins.head = .ok →
      (issue (.pinSet n b) s).2 = none ∧ (issue (.pinSet n b) s).1.lines.get n = Level.ofBool b ∧
        (issue (.pinSet n b) s).1.trace = .set n b :: s.trace) ∧
    (∀ e, s.env.pins.head = .err e →
      (issue (.pinSet n b) s).2 = some e ∧ (issue (.pinSet n b) s).1.lines.get n = .x ∧
        (issue (.pinSet n b) s).1.trace = .setFailed n b e :: s.trace) ∧
    (∀ m, m ≠ n → (issue (.pinSet n b) s).1.lines.get m = s.lines.get m) ∧
    (n.isControl = false → (issue (.pinSet n b) s).1.chip = s.chip) ∧
    (issue (.pinSet n b) s).1.env.pins = s.env.pins.tail ∧
    OnlyBusChanged s (issue (.pinSet n b) s).1

/-- A wait cannot fail and writes nothing but its event in the trace (40_bus_engine.md section 1). -/
def Obligations.WaitWritesNoState : Prop :=
  ∀ (d : Nat) (s : State), issue (.wait d) s = ({ s with trace := .waited d :: s.trace }, none)

/-! ## Micro-operations -/

/-- `UINA` (40_bus_engine.md R113): BDIR low, then BC1 low, from any start; after a first failure the second set is not issued and
BC1 keeps its level. That the return value stands in `engineReturn` is assumption 10. The chip's side:
`Obligations.ModeEntriesOnTheChip`. -/
def Obligations.EnterInactiveMode : Prop := ModeEntry .uina false false .inactive

/-- `UADR` (40_bus_engine.md R114): BDIR high, then BC1 high; the data lines are not touched. As `EnterInactiveMode`. -/
def Obligations.EnterAddressMode : Prop := ModeEntry .uadr true true .addressLatch

/-- `UWRT` (40_bus_engine.md R115): BDIR high, then BC1 low. As `EnterInactiveMode`. -/
def Obligations.EnterWriteMode : Prop := ModeEntry .uwrt true false .write

/-- `UDRV` (40_bus_engine.md R116): eight pin sets, D0 first, always all eight; on success the byte stands on the bus; when the set
of bit `i` fails, the bits below are new, bit `i` is X and the bits above are old. The control lines and the chip are not touched, in
any bus mode. Two clauses are not R116's: that the return value stands in `engineReturn` is the model's own (assumption 10), and that
a data line leaves the chip alone is the spec's decision D17 (20_memory.md R67). -/
def Obligations.DriveByte : Prop :=
  ∀ (v : Byte) (s : State),
    decode (.data8 v) = .ok (.udrv v) ∧
    (answersOk 8 s.env.pins = true →
      ∃ t, exec (.udrv v) s = .next t ∧ t.lines.dataByte = .byte v ∧
        (∀ i, i < 8 → t.lines.get (dataLine i) = Level.ofBool (v.getLsbD i)) ∧
        t.lines.bdir = s.lines.bdir ∧ t.lines.bc1 = s.lines.bc1 ∧
        t.trace = [.set .d7 (v.getLsbD 7), .set .d6 (v.getLsbD 6), .set .d5 (v.getLsbD 5), .set .d4 (v.getLsbD 4),
          .set .d3 (v.getLsbD 3), .set .d2 (v.getLsbD 2), .set .d1 (v.getLsbD 1), .set .d0 (v.getLsbD 0)] ++ s.trace ∧
        t.engineReturn = .ok ∧ t.chip = s.chip ∧ t.env.pins = s.env.pins.drop 8 ∧ t.env.transients = s.env.transients ∧
        OnlyBusChanged s t) ∧
    (∀ i e, i < 8 → answersOk i s.env.pins = true → (s.env.pins.drop i).head = .err e →
      ∃ t, exec (.udrv v) s = .next t ∧
        (∀ j, j < i → t.lines.get (dataLine j) = Level.ofBool (v.getLsbD j)) ∧
        t.lines.get (dataLine i) = .x ∧
        (∀ j, i < j → j < 8 → t.lines.get (dataLine j) = s.lines.get (dataLine j)) ∧
        t.lines.bdir = s.lines.bdir ∧ t.lines.bc1 = s.lines.bc1 ∧
        t.trace = .setFailed (dataLine i) (v.getLsbD i) e :: doneEntries ((driveEvents v).take i) ++ s.trace ∧
        t.engineReturn = .fail e ∧ t.chip = s.chip ∧ t.env.pins = s.env.pins.drop (i + 1) ∧
        t.env.transients = s.env.transients ∧ OnlyBusChanged s t)

/-- What the three mode entries make of the chip, from every start, with every register and the latch said: both sets answered Ok,
the first failing, the second failing (20_memory.md section 5 on the passes of 40_bus_engine.md section 2; the observer is the spec's
decisions D17 and D18). -/
def Obligations.ModeEntriesOnTheChip : Prop :=
  ∀ s : State,
    let left : Chip :=
      if s.mode = .addressLatch ∧ responds s = true then { s.chip with al := s.lines.dataByte }
      else if s.mode = .write ∧ responds s = true then commit s.env.addrDecode s.chip s.lines.dataByte
      else s.chip
    (answersOk 2 s.env.pins = true →
      (∃ t, exec .uina s = .next t ∧ t.chip = left) ∧
      (∃ t, exec .uadr s = .next t ∧
        t.chip =
          if s.lines.bc1 = .x then Chip.lost
          else if s.lines.bc1 = .low ∧ s.env.transients.head = true then commit s.env.addrDecode s.chip s.lines.dataByte
          else s.chip) ∧
      (∃ t, exec .uwrt s = .next t ∧
        t.chip =
          if s.lines.bc1 = .x then Chip.lost
          else if s.lines.bc1 = .high ∧ s.env.transients.head = true then { s.chip with al := s.lines.dataByte }
          else s.chip)) ∧
    (∀ i e, i = .uina ∨ i = .uadr ∨ i = .uwrt → s.env.pins.head = .err e →
      ∃ t, exec i s = .next t ∧ t.chip = Chip.lost) ∧
    (∀ i e, i = .uina ∨ i = .uadr ∨ i = .uwrt → s.env.pins.head = .ok → (s.env.pins.drop 1).head = .err e →
      ∃ t, exec i s = .next t ∧ t.chip = if i = .uina then left else Chip.lost)

/-- The modes a mode entry passes through, the twelve rows of the spec's table (40_bus_engine.md section 2, its inference R117): the
mode after the first set and after the second. -/
def Obligations.ModesPassedThrough : Prop :=
  ∀ s : State, answersOk 2 s.env.pins = true →
    (∀ m, s.mode = m →
      (runEvents (inactiveEvents.take 1) s).1.mode =
        (match m with | .addressLatch => .unlisted | .unlisted => .unlisted | .unknown => (busMode .low s.lines.bc1) | _ => .inactive) ∧
      (runEvents inactiveEvents s).1.mode = .inactive) ∧
    (∀ m, s.mode = m →
      (runEvents (addressEvents.take 1) s).1.mode =
        (match m with | .inactive => .write | .write => .write | .unknown => (busMode .high s.lines.bc1) | _ => .addressLatch) ∧
      (runEvents addressEvents s).1.mode = .addressLatch) ∧
    (∀ m, s.mode = m →
      (runEvents (writeEvents.take 1) s).1.mode =
        (match m with | .inactive => .write | .write => .write | .unknown => (busMode .high s.lines.bc1) | _ => .addressLatch) ∧
      (runEvents writeEvents s).1.mode = .write)

/-- The step table (40_bus_engine.md section 3, the spec's inference R125): its column of 28 micro-events, written out, is the
transaction; and from a start in `Inactive`, after the first `j` of them, all answered Ok, the trace has exactly these, and the control
levels and every data line are as their row says. -/
def Obligations.StepTable : Prop :=
  ∀ a v : Byte,
    let table : List Event :=
      [.pinSet .bdir true, .pinSet .bc1 true,
       .pinSet .d0 (a.getLsbD 0), .pinSet .d1 (a.getLsbD 1), .pinSet .d2 (a.getLsbD 2), .pinSet .d3 (a.getLsbD 3),
       .pinSet .d4 (a.getLsbD 4), .pinSet .d5 (a.getLsbD 5), .pinSet .d6 (a.getLsbD 6), .pinSet .d7 (a.getLsbD 7),
       .wait 1, .pinSet .bdir false, .pinSet .bc1 false, .wait 1,
       .pinSet .d0 (v.getLsbD 0), .pinSet .d1 (v.getLsbD 1), .pinSet .d2 (v.getLsbD 2), .pinSet .d3 (v.getLsbD 3),
       .pinSet .d4 (v.getLsbD 4), .pinSet .d5 (v.getLsbD 5), .pinSet .d6 (v.getLsbD 6), .pinSet .d7 (v.getLsbD 7),
       .pinSet .bdir true, .pinSet .bc1 false, .wait 1, .pinSet .bdir false, .pinSet .bc1 false, .wait 1]
    txnEvents a v = table ∧
    ∀ (s : State) (j : Nat), j ≤ 28 → s.mode = .inactive → answersOk 24 s.env.pins = true →
      let t := (runEvents (table.take j) s).1
      t.trace = doneEntries (table.take j) ++ s.trace ∧
      (t.lines.bdir = if (1 ≤ j ∧ j ≤ 11) ∨ (23 ≤ j ∧ j ≤ 25) then .high else .low) ∧
      (t.lines.bc1 = if 2 ≤ j ∧ j ≤ 12 then .high else .low) ∧
      (∀ i, i < 8 → t.lines.get (dataLine i) =
        if j ≤ i + 2 then s.lines.get (dataLine i)
        else if j ≤ i + 14 then Level.ofBool (a.getLsbD i)
        else Level.ofBool (v.getLsbD i))

/-- `UTXN` (40_bus_engine.md section 3), every pin set answered Ok, from any start: the 28 micro-events, the bus back in
`Inactive` with the value standing, and on the chip first what the transient exit of step 1 does, then the address latched at
step 11 and the value committed at step 25 (20_memory.md section 5; decisions D17, D18). -/
def Obligations.TransactionCompletes : Prop :=
  ∀ (a v : Byte) (s : State), answersOk 24 s.env.pins = true →
    ∃ t, exec (.utxn a v) s = .next t ∧ t.lines = quietLines v ∧ t.engineReturn = .ok ∧
      t.trace = doneEntries (txnEvents a v) ++ s.trace ∧ t.env.pins = s.env.pins.drop 24 ∧
      (s.mode = .inactive → t.env.transients = s.env.transients.drop 1) ∧ OnlyBusChanged s t ∧
      t.chip = commit s.env.addrDecode
        { (if s.lines.bc1 = .x then Chip.lost
           else if s.lines.bc1 = .low ∧ s.env.transients.head = true then commit s.env.addrDecode s.chip s.lines.dataByte
           else s.chip) with al := .byte a } (.byte v)

/-- What a good transaction does (20_memory.md section 5, the spec's inference R72): from known control levels and in sync, the latch
holds the address, the register the value, and every other register is as before. -/
def Obligations.GoodTransactionWritesOneRegister : Prop :=
  ∀ (a v : Byte) (s : State), answersOk 24 s.env.pins = true → ControlKnown s.lines → InSync s → a.toNat < 16 →
    ∃ t, exec (.utxn a v) s = .next t ∧ t.chip.al = .byte a ∧ t.chip.regs.read a.toNat = .byte v ∧
      (∀ r, r ≠ a.toNat → t.chip.regs.read r = s.chip.regs.read r) ∧
      t.lines = quietLines v ∧ t.engineReturn = .ok ∧ OnlyBusChanged s t

/-- After a transaction that ended OK the next one's transient exit changes nothing (20_memory.md section 5, R72: "the transient
changes nothing"), whatever the address and `CHIP_ADDR_DECODE`. -/
def Obligations.GoodTransactionLeavesInSync : Prop :=
  ∀ (a v : Byte) (s : State), answersOk 24 s.env.pins = true →
    ∃ t, exec (.utxn a v) s = .next t ∧ InSync t ∧ t.mode = .inactive

/-- A failure at step `j` of a transaction that starts in `Inactive`, in sync: lines, chip, and nothing issued after it
(40_bus_engine.md section 3, the spec's inference R128, row by row; X and havoc are decisions D4 and D17). -/
def Obligations.TransactionFailsAtStep : Prop :=
  ∀ (a v : Byte) (s : State) (j : Nat) (n : Line) (b : Bool) (e : ErrVal), a.toNat < 16 → s.mode = .inactive → InSync s →
    (txnEvents a v)[j]? = some (.pinSet n b) →
    answersOk (pinCount ((txnEvents a v).take j)) s.env.pins = true →
    (s.env.pins.drop (pinCount ((txnEvents a v).take j))).head = .err e →
    ∃ t, exec (.utxn a v) s = .next t ∧ t.engineReturn = .fail e ∧ OnlyBusChanged s t ∧
      t.trace = .setFailed n b e :: doneEntries ((txnEvents a v).take j) ++ s.trace ∧ t.lines.get n = .x ∧
      (∀ m, m ≠ n → t.lines.get m = (runEvents ((txnEvents a v).take j) s).1.lines.get m) ∧
      (j ∈ [0, 1, 11, 22, 23, 25] → t.mode = .unknown ∧ t.chip = Chip.lost) ∧
      (2 ≤ j ∧ j ≤ 9 → t.mode = .addressLatch ∧ t.chip = s.chip) ∧
      (j = 12 → t.mode = .unknown ∧ t.lines.bdir = .low ∧ t.chip = { s.chip with al := .byte a }) ∧
      (14 ≤ j ∧ j ≤ 21 → t.mode = .inactive ∧ t.chip = { s.chip with al := .byte a }) ∧
      (j = 26 → t.mode = .unknown ∧ t.lines.bdir = .low ∧
        t.chip = { al := .byte a, regs := s.chip.regs.write a.toNat (.byte v) })

/-! ## Public commands -/

/-- `CLR` (41_register_commands.md section 2): from any start at all, when every pin set is answered Ok, all sixteen registers are
0x00, the latch holds 0xF, the bus is in `Inactive` with 0x00 on the data lines, after 448 micro-events. -/
def Obligations.ClearAllFromAnyStart : Prop :=
  ∀ s : State, WillRun 16 s →
    ∃ t, exec .clr s = .next t ∧
      EndedOk ((List.range 16).map fun k => (BitVec.ofNat 8 k, 0#8)) (0x0F, 0x00) s t ∧
      (∀ r, r < 16 → t.chip.regs.read r = .byte 0x00) ∧
      t.trace.length = s.trace.length + 448

/-- `WREG` (41_register_commands.md section 2): the addressed register alone, for an address below 0x10. -/
def Obligations.SetRegisterValue : Prop :=
  ∀ (a v : Byte) (s : State), WillRunInSync 1 s → a.toNat < 16 →
    ∃ t, exec (.wreg a v) s = .next t ∧ t.chip.regs.read a.toNat = .byte v ∧ WrotePlan [(a, v)] (a, v) s t

/-- `WREG` with an address of 0x10 or more: it runs and reports OK, the address on the bus unchanged; on the chip,
`CHIP_ADDR_DECODE` (20_memory.md section 5; decision D19). -/
def Obligations.SetRegisterValueBeyondTheChip : Prop :=
  ∀ (a v : Byte) (s : State), WillRunInSync 1 s → 16 ≤ a.toNat →
    ∃ t, exec (.wreg a v) s = .next t ∧ EndedOk [(a, v)] (a, v) s t ∧
      t.chip.regs =
        match s.env.addrDecode with
        | .havoc => []
        | .ignore => s.chip.regs
        | .aliased => s.chip.regs.write (a.toNat % 16) (.byte v)

/-- `TONE` (41_register_commands.md section 2): the low byte to the fine register, then the high byte, unmasked, to the rough one. -/
def Obligations.SetChannelFrequency : Prop :=
  ∀ (ch : Channel) (f : Period) (s : State), WillRunInSync 2 s →
    let fine : Byte := match ch with | .a => 0 | .b => 2 | .c => 4
    let rough : Byte := match ch with | .a => 1 | .b => 3 | .c => 5
    let lo := BitVec.ofNat 8 (f.toNat % 256)
    let hi := BitVec.ofNat 8 (f.toNat / 256)
    ∃ t, exec (.tone ch f) s = .next t ∧ t.chip.regs.read fine.toNat = .byte lo ∧ t.chip.regs.read rough.toNat = .byte hi ∧
      WrotePlan [(fine, lo), (rough, hi)] (rough, hi) s t

/-- `NOISE` (41_register_commands.md R144): its word, and register 0x6 with all eight bits. -/
def Obligations.SetNoise : Prop :=
  ∀ (f : Byte) (s : State), decode (.cmd32 (commandWord 0x03 0 (f.setWidth 16))) = .ok (.noise f) ∧ (WillRunInSync 1 s →
    ∃ t, exec (.noise f) s = .next t ∧ t.chip.regs.read 6 = .byte f ∧ WrotePlan [(6, f)] (6, f) s t)

/-- `MIX` (41_register_commands.md R145): its word, and register 0x7, the raw byte of eight flags, all replaced at once. -/
def Obligations.SetMixerSettings : Prop :=
  ∀ (m : Byte) (s : State), decode (.cmd32 (commandWord 0x04 0 (m.setWidth 16))) = .ok (.mix m) ∧ (WillRunInSync 1 s →
    ∃ t, exec (.mix m) s = .next t ∧ t.chip.regs.read 7 = .byte m ∧ WrotePlan [(7, m)] (7, m) s t)

/-- `LVLF` and `LVLE` (41_register_commands.md R146): their words, and the channel's level register alone: `n` modulo 16 with bits 7:4
zero, or 0x10. -/
def Obligations.SetChannelLevel : Prop :=
  ∀ (ch : Channel) (n : Byte) (s : State),
    let sel : Byte := match ch with | .a => 0 | .b => 1 | .c => 2
    let r : Byte := match ch with | .a => 8 | .b => 9 | .c => 10
    let b := BitVec.ofNat 8 (n.toNat % 16)
    decode (.cmd32 (commandWord 0x05 sel (n.setWidth 16))) = .ok (.lvlf ch n) ∧
    decode (.cmd32 (commandWord 0x05 sel 0x0100)) = .ok (.lvle ch) ∧
    (WillRunInSync 1 s →
      (∃ t, exec (.lvlf ch n) s = .next t ∧ t.chip.regs.read r.toNat = .byte b ∧ WrotePlan [(r, b)] (r, b) s t) ∧
      (∃ t, exec (.lvle ch) s = .next t ∧ t.chip.regs.read r.toNat = .byte 0x10 ∧ WrotePlan [(r, 0x10)] (r, 0x10) s t))

/-- `ENVF` (41_register_commands.md section 2; fine first is decision D15): registers 0xB, then 0xC, unmasked. -/
def Obligations.SetEnvelopeFrequency : Prop :=
  ∀ (f : Period) (s : State), WillRunInSync 2 s →
    let lo := BitVec.ofNat 8 (f.toNat % 256)
    let hi := BitVec.ofNat 8 (f.toNat / 256)
    ∃ t, exec (.envf f) s = .next t ∧ t.chip.regs.read 0xB = .byte lo ∧ t.chip.regs.read 0xC = .byte hi ∧
      WrotePlan [(0x0B, lo), (0x0C, hi)] (0x0C, hi) s t

/-- `ENVS` (41_register_commands.md R148): its words, and register 0xD, the shape modulo 16, also for a byte the command word cannot
spell, as R148 asks of a byte operand (assumption 19). -/
def Obligations.SetEnvelopeShape : Prop :=
  ∀ (x : Byte) (s : State),
    let b := BitVec.ofNat 8 (x.toNat % 16)
    (x.toNat < 16 → decode (.cmd32 (commandWord 0x07 0 (x.setWidth 16))) = .ok (.envs x)) ∧
    (WillRunInSync 1 s →
      ∃ t, exec (.envs x) s = .next t ∧ t.chip.regs.read 0xD = .byte b ∧ WrotePlan [(0x0D, b)] (0x0D, b) s t)

/-- `IOW` (41_register_commands.md R149): its words, and register 0xE for A, register 0xD for B, unmasked, and no other. -/
def Obligations.SetIoPortData : Prop :=
  ∀ (p : IoPort) (d : Byte) (s : State),
    let sel : Byte := match p with | .a => 0 | .b => 1
    let r : Byte := match p with | .a => 0x0E | .b => 0x0D
    decode (.cmd32 (commandWord 0x08 sel (d.setWidth 16))) = .ok (.iow p d) ∧
    (WillRunInSync 1 s →
      ∃ t, exec (.iow p d) s = .next t ∧ t.chip.regs.read r.toNat = .byte d ∧ WrotePlan [(r, d)] (r, d) s t)

/-- The port B alias (20_memory.md R53, 70_reset_and_hazards.md R216): port B data and the envelope shape overwrite each other at
0xD, the port byte unmasked, the shape byte masked; no command writes port B data anywhere else, and only `WREG` and `CLR` reach 0xF. -/
def Obligations.PortBAliasesEnvelopeShape : Prop :=
  (∀ (x d : Byte) (s : State), WillRunInSync 2 s →
    (∃ u t, exec (.envs x) s = .next u ∧ exec (.iow .b d) u = .next t ∧ t.result = .ok ∧
      u.chip.regs.read 0xD = .byte (x &&& 0x0F) ∧ t.chip.regs.read 0xD = .byte d ∧
      (∀ r, r ≠ 0xD → t.chip.regs.read r = s.chip.regs.read r)) ∧
    (∃ u t, exec (.iow .b d) s = .next u ∧ exec (.envs x) u = .next t ∧ t.result = .ok ∧
      u.chip.regs.read 0xD = .byte d ∧ t.chip.regs.read 0xD = .byte (x &&& 0x0F) ∧
      (∀ r, r ≠ 0xD → t.chip.regs.read r = s.chip.regs.read r))) ∧
  (∀ d, plan (.iow .b d) = [(0x0D, d)]) ∧
  (∀ i v, ((0x0F, v) : Pair) ∈ plan i → i = .clr ∨ i = .wreg 0x0F v)

/-- Every command from every start (41_register_commands.md section 1): when its pin sets are answered Ok it ends OK with its plan's
transactions in the trace, and every chip register its plan names holds the plan's byte, even from unknown control levels. That latch
and position then hold no value is assumption 13. -/
def Obligations.EveryCommandEndsOkFromAnyStart : Prop :=
  ∀ (i : Instr) (s : State), isCommand i = true → WillRun (plan i).length s →
    ∃ t last, exec i s = .next t ∧ (plan i).getLast? = some last ∧ EndedOk (plan i) last s t ∧ t.cmd = none ∧ t.pos = .noValue ∧
      (∀ q ∈ plan i, q.1.toNat < 16 → t.chip.regs.read q.1.toNat = .byte q.2)

/-- The level byte (30_encoding.md R86): `Fixed(n)` is `n` in bits 3:0 with bits 7:4 zero, so never the envelope byte 0x10. -/
def Obligations.LevelByteForms : Prop :=
  ∀ (ch : Channel) (n : Byte),
    ∃ b, plan (.lvlf ch n) = [(levelAddr ch, b)] ∧ b.extractLsb' 0 4 = n.extractLsb' 0 4 ∧ b.extractLsb' 4 4 = 0 ∧ b ≠ 0x10 ∧
      plan (.lvle ch) = [(levelAddr ch, 0x10)]

/-- Sizes of the commands in a run without failure (41_register_commands.md section 3, the table of R153, which the spec derives). -/
def Obligations.CommandSizes : Prop :=
  ∀ i : Instr, isCommand i = true →
    pinCount (planEvents (plan i)) = 24 * (plan i).length ∧ waitCount (planEvents (plan i)) = 4 * (plan i).length ∧
    (planEvents (plan i)).length = 28 * (plan i).length ∧ leastTime (planEvents (plan i)) = 4 * (plan i).length ∧
    (plan i).length =
      match i with
      | .clr => 16
      | .tone _ _ => 2
      | .envf _ => 2
      | _ => 1

/-- A command presented in another run state than IDLE is not seen: no state changes (30_encoding.md section 3, R90, decision D9;
93_implementation_defined.md I11, I12). -/
def Obligations.CommandNotSeenUnlessIdle : Prop :=
  ∀ (i : Instr) (s : State), isCommand i = true → s.run ≠ .idle → exec i s = .next s

/-! ## The failure -/

/-- The first failing pin set of a command, at step `j` of transaction `k`, for any command, any line and any start (40_bus_engine.md
section 2 on R112, 60_exceptions.md section 1 on R172): everything before it has taken effect, its line is X, nothing after it is issued,
the result is the error value unchanged, and the controller is IDLE. On the chip (20_memory.md section 5 and R128's observer column;
decisions D17, D18): `c` is what step 1 of the first transaction and the whole transactions before `k` leave; a failed BDIR, or a BC1 that
fails while BDIR is high, loses everything; a failed data line or a BC1 that fails with BDIR low loses nothing more, so the chip has what
was latched and committed until then. -/
def Obligations.CommandAbortsAtFirstFailure : Prop :=
  ∀ (i : Instr) (s : State) (k j : Nat) (q : Pair) (n : Line) (b : Bool) (e : ErrVal),
    let pre := planEvents ((plan i).take k) ++ (txnEvents q.1 q.2).take j
    let start : Chip :=
      if s.lines.bc1 = .x then Chip.lost
      else if s.lines.bc1 = .low ∧ s.env.transients.head = true then commit s.env.addrDecode s.chip s.lines.dataByte
      else s.chip
    let c := ((plan i).take k).foldl (fun c p => commit s.env.addrDecode { c with al := .byte p.1 } (.byte p.2)) start
    isCommand i = true → s.run = .idle → (plan i)[k]? = some q → (txnEvents q.1 q.2)[j]? = some (.pinSet n b) →
    answersOk (pinCount pre) s.env.pins = true → (s.env.pins.drop (pinCount pre)).head = .err e →
    ∃ t, exec i s = .next t ∧ t.run = .idle ∧ t.result = .fail e ∧
      t.trace = .setFailed n b e :: doneEntries pre ++ s.trace ∧
      t.lines = (linesAfter pre s.lines).set n .x ∧
      (j ∈ [0, 1, 11, 22, 23, 25] → t.chip = Chip.lost) ∧
      (2 ≤ j ∧ j ≤ 9 → t.chip = c) ∧
      (12 ≤ j ∧ j ≤ 21 → t.chip = { c with al := .byte q.1 }) ∧
      (j = 26 → t.chip = commit s.env.addrDecode { c with al := .byte q.1 } (.byte q.2)) ∧
      t.env.pins = s.env.pins.drop (pinCount pre + 1) ∧
      t.engineReturn = s.engineReturn ∧ t.env.addrDecode = s.env.addrDecode ∧ t.env.agenda = s.env.agenda

/-- A clear that fails on a data line in its transaction `k` (70_reset_and_hazards.md section 2, R220): registers below `k` hold 0x00,
`k` and those above are as they were. A failure on a control line can make the observer lose everything
(`Obligations.TransactionFailsAtStep`). -/
def Obligations.PartialClear : Prop :=
  ∀ (s : State) (k : Nat) (pre post : List Event) (n : Line) (b : Bool) (e : ErrVal),
    k < 16 → s.run = .idle → ControlKnown s.lines → InSync s → n.isControl = false →
    txnEvents (BitVec.ofNat 8 k) 0x00 = pre ++ .pinSet n b :: post →
    answersOk (24 * k + pinCount pre) s.env.pins = true → (s.env.pins.drop (24 * k + pinCount pre)).head = .err e →
    ∃ t, exec .clr s = .next t ∧ t.run = .idle ∧ t.result = .fail e ∧
      (∀ r, r < k → t.chip.regs.read r = .byte 0x00) ∧
      (∀ r, k ≤ r → t.chip.regs.read r = s.chip.regs.read r)

/-- A period that fails on a data line of its second transaction (70_reset_and_hazards.md section 2, the spec's inference R217;
41_register_commands.md section 2): for a tone period the fine register has the new byte, the rough one and all others are as they were;
for the envelope period 0xB has the new byte, 0xC and all others are as they were (fine first is decision D15). -/
def Obligations.HalfWrittenPeriod : Prop :=
  ∀ (f : Period) (s : State) (pre post : List Event) (n : Line) (b : Bool) (e : ErrVal),
    s.run = .idle → ControlKnown s.lines → InSync s → n.isControl = false →
    answersOk (24 + pinCount pre) s.env.pins = true → (s.env.pins.drop (24 + pinCount pre)).head = .err e →
    (∀ ch, txnEvents (toneRoughAddr ch) (highByte f) = pre ++ .pinSet n b :: post →
      ∃ t, exec (.tone ch f) s = .next t ∧ t.run = .idle ∧ t.result = .fail e ∧
        t.chip.regs.read (toneFineAddr ch).toNat = .byte (lowByte f) ∧
        (∀ r, r ≠ (toneFineAddr ch).toNat → t.chip.regs.read r = s.chip.regs.read r)) ∧
    (txnEvents 0x0C (highByte f) = pre ++ .pinSet n b :: post →
      ∃ t, exec (.envf f) s = .next t ∧ t.run = .idle ∧ t.result = .fail e ∧
        t.chip.regs.read 0xB = .byte (lowByte f) ∧
        (∀ r, r ≠ 0xB → t.chip.regs.read r = s.chip.regs.read r))

/-! ## Reset -/

/-- A reset request that is honoured and answered Ok twice (70_reset_and_hazards.md R201, R202): two micro-events, BDIR and BC1 low,
`Inactive`, IDLE, OK; the data lines are what they were, and from `Inactive` the chip is what it was. -/
def Obligations.ResetCompletes : Prop :=
  ∀ s : State, s.run = .off ∨ s.run = .dead ∨ s.run = .idle → answersOk 2 s.env.pins = true →
    ∃ t, exec .reset s = .next t ∧ t.run = .idle ∧ t.result = .ok ∧ t.mode = .inactive ∧ t.cmd = none ∧ t.pos = .noValue ∧
      t.lines = { s.lines with bdir := .low, bc1 := .low } ∧
      t.trace = .set .bc1 false :: .set .bdir false :: s.trace ∧
      t.env.pins = s.env.pins.drop 2 ∧ t.engineReturn = s.engineReturn ∧
      t.env.addrDecode = s.env.addrDecode ∧ t.env.agenda = s.env.agenda ∧
      t.chip.regs = (if s.mode = .write ∧ responds s = true then (commit s.env.addrDecode s.chip s.lines.dataByte).regs
        else s.chip.regs) ∧
      t.chip.al = (if s.mode = .addressLatch ∧ responds s = true then s.lines.dataByte else s.chip.al)

/-- A reset whose first or second pin set fails (60_exceptions.md section 1, R179; DEAD is decision D6): DEAD with the failure
unchanged; after the first failure the second set is not issued. On the chip: an unknown BDIR loses everything, an unknown BC1 with
BDIR low nothing (20_memory.md section 5, decision D17). -/
def Obligations.ResetFails : Prop :=
  ∀ (s : State) (e : ErrVal), s.run = .off ∨ s.run = .dead ∨ s.run = .idle →
    (s.env.pins.head = .err e →
      ∃ t, exec .reset s = .next t ∧ t.run = .dead ∧ t.result = .fail e ∧ t.mode = .unknown ∧
        t.lines = { s.lines with bdir := .x } ∧ t.trace = .setFailed .bdir false e :: s.trace ∧
        t.env.pins = s.env.pins.drop 1 ∧ t.chip = Chip.lost ∧ t.cmd = none ∧ t.pos = .noValue ∧ t.engineReturn = s.engineReturn ∧
        t.env.addrDecode = s.env.addrDecode ∧ t.env.agenda = s.env.agenda) ∧
    (s.env.pins.head = .ok → (s.env.pins.drop 1).head = .err e →
      ∃ t, exec .reset s = .next t ∧ t.run = .dead ∧ t.result = .fail e ∧ t.mode = .unknown ∧
        t.lines = { s.lines with bdir := .low, bc1 := .x } ∧
        t.trace = .setFailed .bc1 false e :: .set .bdir false :: s.trace ∧
        t.env.pins = s.env.pins.drop 2 ∧
        t.chip = (if s.mode = .addressLatch ∧ responds s = true then { s.chip with al := s.lines.dataByte }
          else if s.mode = .write ∧ responds s = true then commit s.env.addrDecode s.chip s.lines.dataByte
          else s.chip) ∧ t.cmd = none ∧ t.pos = .noValue ∧ t.engineReturn = s.engineReturn ∧
        t.env.addrDecode = s.env.addrDecode ∧ t.env.agenda = s.env.agenda)

/-- A reset request while a command or a reset is running has no move (70_reset_and_hazards.md section 1, R200, decision D6). -/
def Obligations.ResetNotHonouredWhileRunning : Prop :=
  ∀ s : State, s.run = .busy ∨ s.run = .resetting → exec .reset s = .next s

/-- The model's state after reset is what its own reset makes of power-on when both pin sets are answered Ok, under every
environment (10_state.md section 6; assumption 8). -/
def Obligations.StateResetIsPowerOnThenReset : Prop :=
  ∀ env : Env ErrVal, answersOk 2 env.pins = true →
    exec .reset { State.powerOn with env := env } = .next { State.reset with env := { env with pins := env.pins.drop 2 } }

/-! ## The step -/

/-- A step runs the decoded operation: with the controller IDLE and a call on top of the agenda whose word decodes, the step is
`exec` of it, in the state without that move (30_encoding.md section 3; assumptions 5, 6, 7). The move taken off is all that
`step` adds around `exec`. -/
def Obligations.StepRunsTheDecodedOperation : Prop :=
  ∀ (s : State) (e : Encoded) (rest : List HostMove) (i : Instr),
    s.run = .idle → s.env.agenda = .call e :: rest → decode e = .ok i →
    step s = exec i { s with env := { s.env with agenda := rest } }

/-- OFF and DEAD take a reset request and nothing else (10_state.md section 3, 30_encoding.md section 3, 70_reset_and_hazards.md
section 1; decisions D6, D9): of the host's moves there, a called reset word resets, and any other call, a presented command word and a
release change only the agenda (assumptions 14, 15). The move `requestReset`, whenever nothing runs, begins the reset: RESETTING, at
position 0 (R201), no micro-event yet. -/
def Obligations.OffAndDeadTakeOnlyReset : Prop :=
  ∀ (s : State) (m : HostMove) (rest : List HostMove), s.env.agenda = m :: rest →
    let s' : State := { s with env := { s.env with agenda := rest } }
    (s.run = .off ∨ s.run = .dead →
      (∀ e, m = .call e → step s = if e = .req1 1 then exec .reset s' else .next s') ∧
      (∀ w, m = .present w → step s = .next s') ∧
      (m = .release → step s = .next s')) ∧
    (s.run = .off ∨ s.run = .dead ∨ s.run = .idle → m = .requestReset →
      step s = .next { s' with run := .resetting, pos := .resetStep 0 })

/-- A reserved word changes nothing but the host's agenda (30_encoding.md section 3, R94; 60_exceptions.md R181; decision D8). -/
def Obligations.ReservedWordChangesNothing : Prop :=
  ∀ (s : State) (w : BitVec 32) (rest : List HostMove) (r : Reject), s.run = .idle → decode (.cmd32 w) = .error r →
    s.env.agenda = .call (.cmd32 w) :: rest ∨ s.env.agenda = .present w :: rest →
    step s = .next { s with env := { s.env with agenda := rest } }

/-- A presented command word that decodes is accepted (30_encoding.md section 3, R90, decisions D7 and D9): latched, BUSY, position
(0, 0), no micro-event yet. -/
def Obligations.PresentedCommandIsAccepted : Prop :=
  ∀ (s : State) (w : BitVec 32) (rest : List HostMove) (i : Instr), s.run = .idle → s.env.agenda = .present w :: rest →
    decode (.cmd32 w) = .ok i →
    step s = .next { s with run := .busy, cmd := some i, pos := .step 0 0, env := { s.env with agenda := rest } }

/-- Releasing the controller issues no micro-event and changes no line, no register and no result (70_reset_and_hazards.md
section 1, R206, decision D20; assumption 15). -/
def Obligations.ReleaseIssuesNothing : Prop :=
  ∀ (s : State) (rest : List HostMove), s.busy = false → s.env.agenda = .release :: rest →
    step s = .next { s with env := { s.env with agenda := rest } }

/-- How the position moves while BUSY (10_state.md section 3, R29, decision D9): one micro-event of the plan a step; the next step,
the next transaction, or the end with OK; at a failure, the end with FAIL(e). -/
def Obligations.PositionAdvances : Prop :=
  ∀ (s : State) (i : Instr) (k j : Nat) (q : Pair) (ev : Event),
    s.run = .busy → s.cmd = some i → s.pos = .step k j → (plan i)[k]? = some q → (txnEvents q.1 q.2)[j]? = some ev →
    (∀ e, (issue ev s).2 = some e → step s = .next (endCommand (some e) (issue ev s).1)) ∧
    ((issue ev s).2 = none →
      (j < 27 → step s = .next { (issue ev s).1 with pos := .step k (j + 1) }) ∧
      (j = 27 → k + 1 < (plan i).length → step s = .next { (issue ev s).1 with pos := .step (k + 1) 0 }) ∧
      (j = 27 → k + 1 = (plan i).length → step s = .next (endCommand none (issue ev s).1)))

/-- A step while something runs issues exactly one micro-event, keeps the latched command, and stays running or ends (10_state.md
section 7, items 3 and 4, which the spec derives; section 3). -/
def Obligations.RunningStepIssuesOneMicroEvent : Prop :=
  ∀ s t : State, s.busy = true → step s = .next t →
    (∃ e, t.trace = e :: s.trace) ∧
    (s.run = .busy → (t.run = .busy ∧ t.cmd = s.cmd) ∨ t.run = .idle) ∧
    (s.run = .resetting → t.run = .resetting ∨ t.run = .idle ∨ t.run = .dead)

/-! ## Whole-machine claims -/

/-- The blocking call is the sequencer's run: from acceptance, the machine's own steps, one micro-event each, stay BUSY until the last
and then stand where `exec` of the command stands, within 28 steps a transaction, under every answer of the pin environment
(41_register_commands.md section 1, 10_state.md section 3; assumption 5). -/
def Obligations.BlockingCallIsTheSequencersRun : Prop :=
  ∀ (i : Instr) (s : State), isCommand i = true → s.run = .idle →
    ∃ m, 0 < m ∧ m ≤ 28 * (plan i).length ∧ Host.Core.run Sys2Proof.core m (accept i s) = exec i s ∧
      ∀ m', m' < m → ∃ u : State, Host.Core.run Sys2Proof.core m' (accept i s) = .next u ∧ u.run = .busy ∧ u.cmd = some i

/-- The same for a reset request: at most two steps from RESETTING (70_reset_and_hazards.md section 1). -/
def Obligations.BlockingResetIsTheSequencersRun : Prop :=
  ∀ s : State, s.run = .off ∨ s.run = .dead ∨ s.run = .idle →
    ∃ m, 0 < m ∧ m ≤ 2 ∧ Host.Core.run Sys2Proof.core m (beginReset s) = exec .reset s ∧
      ∀ m', m' < m → ∃ u : State, Host.Core.run Sys2Proof.core m' (beginReset s) = .next u ∧ u.run = .resetting

/-- Every step from a state whose latch, position and lines agree with the step table goes on, and keeps them so (10_state.md section
7, items 2 and 3, which the spec derives; 40_bus_engine.md section 3). -/
def Obligations.StepGoesOnAndKeepsPosition : Prop :=
  ∀ s : State, PositionOk s → ∃ t, step s = .next t ∧ PositionOk t

/-- Every step keeps the chip's registers in canonical form. -/
def Obligations.StepKeepsRegistersCanonical : Prop :=
  ∀ s t : State, RegistersOk s → step s = .next t → RegistersOk t

/-- Every step keeps each line at the level its last pin set left, X if that failed or if there was none (10_state.md section 7, item
5, which the spec derives). -/
def Obligations.StepKeepsLinesFollowTrace : Prop :=
  ∀ s t : State, LinesFollowTrace s → step s = .next t → LinesFollowTrace t

/-- Every step a host can cause keeps: IDLE with result OK has the bus in `Inactive` (10_state.md section 7, item 1, which the spec
derives). The premise leaves out a micro-operation run by itself, which no host can do (assumption 10). -/
def Obligations.StepKeepsInactiveAfterOk : Prop :=
  ∀ s t : State, PositionOk s → HostDriven s → InactiveAfterOk s → step s = .next t → HostDriven t ∧ InactiveAfterOk t

/-- Every step keeps: OFF has no result, and DEAD an unknown mode and a failure (10_state.md section 6; decisions D6 and D10). -/
def Obligations.StepKeepsOutcome : Prop :=
  ∀ s t : State, OutcomeOk s → step s = .next t → OutcomeOk t

/-- Every step keeps: an error value reported was given by the pin environment (60_exceptions.md section 1). -/
def Obligations.StepKeepsErrorFromPins : Prop :=
  ∀ s t : State, ErrorFromPins s → step s = .next t → ErrorFromPins t

/-- Power-on and the state after reset meet every invariant, and are in sync, under every environment, the model's own among them
(10_state.md section 6). -/
def Obligations.ResetMeetsTheInvariants : Prop :=
  (∀ (s : State) (env : Env ErrVal), s = { State.powerOn with env := env } ∨ s = { State.reset with env := env } →
    PositionOk s ∧ RegistersOk s ∧ LinesFollowTrace s ∧ InactiveAfterOk s ∧ OutcomeOk s ∧ ErrorFromPins s ∧ InSync s) ∧
  State.reset.mode = .inactive ∧ State.reset.lines.dataByte = .x ∧ (State.powerOn : State).mode = .unknown

/-- The parameters of the step relation (00_scope.md section 6, 10_state.md section 3): the controller never inspects, compares or makes
an error value, so that renaming every one, before a step or after it, comes to the same, from any type of error values into any other, in
every state and under every renaming; the machine the host runs is that machine at its error type; and its step is the one with the
parameters as arguments and R14's state alone (assumptions 1, 3, 4, 10). -/
def Obligations.ErrorValuesAreNeverInspected : Prop :=
  (∀ (A B : Type) (f : A → B) (s : State A), stepOf (mapErrors f s) = mapOutcome f (stepOf s)) ∧
  ∀ s : State, step s = stepOf s ∧ withoutReturn (step s) = stepUnder s.env s.toBlock

/-- The controller's behaviour never depends on the chip, on its responses or on `CHIP_ADDR_DECODE` (20_memory.md section 5,
10_state.md section 2): two states that differ only there step alike. -/
def Obligations.ControllerIndependentOfTheChip : Prop :=
  ∀ s t : State, SameController s t → OutcomesRelated SameController (step s) (step t)

/-- A command reads no state (41_register_commands.md section 1, 20_memory.md section 3): from two IDLE states given the same answers,
whatever their lines, results, traces and chips, it issues the same micro-events with the same answers and reports the same. -/
def Obligations.TraceDependsOnlyOnCommandAndAnswers : Prop :=
  ∀ (i : Instr) (s t : State), isCommand i = true → s.run = .idle → t.run = .idle → s.env.pins = t.env.pins →
    ∃ s' t' es, exec i s = .next s' ∧ exec i t = .next t' ∧ s'.trace = es ++ s.trace ∧ t'.trace = es ++ t.trace ∧
      s'.result = t'.result ∧ s'.env.pins = t'.env.pins

/-- No operation touches `CHIP_ADDR_DECODE` or the host's agenda, and no command or reset touches what a micro-operation returned; a
micro-operation touches neither run state, latch, position nor result; a command that ran, failed or not, leaves no latch and no
position (assumption 13). The frame of every row of the table at once (40_bus_engine.md sections 2 and 3, 41_register_commands.md
section 1). -/
def Obligations.FrameOfEveryOperation : Prop :=
  ∀ (i : Instr) (s : State), ∃ t, exec i s = .next t ∧ t.env.addrDecode = s.env.addrDecode ∧ t.env.agenda = s.env.agenda ∧
    (isCommand i = true ∨ i = .reset → t.engineReturn = s.engineReturn) ∧
    (isCommand i = true → s.run = .idle → t.cmd = none ∧ t.pos = .noValue) ∧
    (isCommand i = false → i ≠ .reset → OnlyBusChanged s t)
end

