-- ==== Sys2Proof/Laws/Memory.lean ====
section
/-! SUPPORT. The chip's registers: read after write, other registers, and the canonical form kept by every operation. -/

namespace Sys2Proof.Laws

open Sys2Proof
open Sys2Proof.Machine

@[simp] theorem read_nil (a : Nat) : Memory.read [] a = .x := rfl

theorem read_cons (k : Nat) (w : Byte) (m : Memory) (a : Nat) :
    Memory.read ((k, w) :: m) a = if a = k then .byte w else Memory.read m a := rfl

@[simp] theorem read_insert_same (m : Memory) (a : Nat) (v : Byte) : (m.insert a v).read a = .byte v := by
  induction m with
  | nil => simp [Memory.insert, read_cons]
  | cons c m ih =>
    obtain ⟨k, w⟩ := c
    simp only [Memory.insert]
    split
    · simp [read_cons]
    · split
      · simp [read_cons]
      · simp [read_cons, *]

@[simp] theorem read_insert_other (m : Memory) {a b : Nat} (v : Byte) (h : b ≠ a) :
    (m.insert a v).read b = m.read b := by
  induction m with
  | nil => simp [Memory.insert, read_cons, h]
  | cons c m ih =>
    obtain ⟨k, w⟩ := c
    simp only [Memory.insert]
    split
    · simp [read_cons, h]
    · split
      · next hk => subst hk; simp [read_cons, h]
      · simp [read_cons, ih]

theorem read_erase_same (m : Memory) (a : Nat) : (m.erase a).read a = .x := by
  induction m with
  | nil => rfl
  | cons c m ih =>
    obtain ⟨k, w⟩ := c
    by_cases h : k = a
    · simpa [Memory.erase, h] using ih
    · simpa [Memory.erase, h, read_cons, Ne.symm h] using ih

theorem read_erase_other (m : Memory) {a b : Nat} (h : b ≠ a) : (m.erase a).read b = m.read b := by
  induction m with
  | nil => rfl
  | cons c m ih =>
    obtain ⟨k, w⟩ := c
    by_cases hk : k = a
    · subst hk; simpa [Memory.erase, read_cons, h] using ih
    · simp only [Memory.erase, List.filter_cons, ne_eq, hk, not_false_eq_true, decide_true, if_true, read_cons] at ih ⊢
      rw [ih]

@[simp] theorem read_write_same (m : Memory) (a : Nat) (v : ByteX) : (m.write a v).read a = v := by
  cases v with
  | byte v => exact read_insert_same m a v
  | x => exact read_erase_same m a

@[simp] theorem read_write_other (m : Memory) {a b : Nat} (v : ByteX) (h : b ≠ a) :
    (m.write a v).read b = m.read b := by
  cases v with
  | byte v => exact read_insert_other m v h
  | x => exact read_erase_other m h

/-! ### Canonical form -/

/-- The canonical form as an order on the list: what the proofs below go through. -/
theorem wf_iff (m : Memory) :
    m.wf = true ↔ m.Pairwise (fun c d => c.1 < d.1) ∧ ∀ c ∈ m, c.1 < Config.nReg := by
  induction m with
  | nil => simp [Memory.wf]
  | cons c m ih =>
    obtain ⟨k, w⟩ := c
    cases m with
    | nil => simp [Memory.wf]
    | cons d m =>
      obtain ⟨k', w'⟩ := d
      simp only [Memory.wf, Bool.and_eq_true, decide_eq_true_eq, ih]
      constructor
      · rintro ⟨hk, hp, hb⟩
        have hlt : ∀ c ∈ (k', w') :: m, k < c.1 := by
          intro c hc
          rcases List.mem_cons.mp hc with rfl | hc
          · exact hk
          · exact hk.trans ((List.pairwise_cons.mp hp).1 c hc)
        refine ⟨List.pairwise_cons.mpr ⟨hlt, hp⟩, ?_⟩
        intro c hc
        rcases List.mem_cons.mp hc with rfl | hc
        · exact hk.trans (hb (k', w') (by simp))
        · exact hb c hc
      · rintro ⟨hp, hb⟩
        have h := List.pairwise_cons.mp hp
        exact ⟨h.1 (k', w') (by simp), h.2, fun c hc => hb c (by simp [hc])⟩

theorem mem_insert (m : Memory) (a : Nat) (v : Byte) (c : Host.Cell) (h : c ∈ m.insert a v) : c = (a, v) ∨ c ∈ m := by
  induction m with
  | nil => simpa [Memory.insert] using h
  | cons d m ih =>
    obtain ⟨k, w⟩ := d
    simp only [Memory.insert] at h
    split at h
    · simpa using h
    · split at h
      · rcases List.mem_cons.mp h with h | h
        · exact .inl h
        · exact .inr (by simp [h])
      · rcases List.mem_cons.mp h with h | h
        · exact .inr (by simp [h])
        · rcases ih h with h | h
          · exact .inl h
          · exact .inr (by simp [h])

theorem insert_keeps_wf (m : Memory) (a : Nat) (v : Byte) (ha : a < Config.nReg) (h : m.wf = true) :
    (m.insert a v).wf = true := by
  rw [wf_iff] at h ⊢
  obtain ⟨hp, hb⟩ := h
  constructor
  · induction m with
    | nil => simp [Memory.insert]
    | cons d m ih =>
      obtain ⟨k, w⟩ := d
      have hc := List.pairwise_cons.mp hp
      simp only [Memory.insert]
      split
      · next hk =>
        refine List.pairwise_cons.mpr ⟨?_, hp⟩
        intro c hm
        rcases List.mem_cons.mp hm with rfl | hm
        · exact hk
        · exact hk.trans (hc.1 c hm)
      · split
        · next hk => subst hk; exact List.pairwise_cons.mpr hc
        · next hk hk' =>
          refine List.pairwise_cons.mpr ⟨?_, ih hc.2 fun c hm => hb c (by simp [hm])⟩
          intro c hm
          rcases mem_insert m a v c hm with rfl | hm
          · show k < a
            omega
          · exact hc.1 c hm
  · intro c hm
    rcases mem_insert m a v c hm with rfl | hm
    · exact ha
    · exact hb c hm

theorem erase_keeps_wf (m : Memory) (a : Nat) (h : m.wf = true) : (m.erase a).wf = true := by
  rw [wf_iff] at h ⊢
  exact ⟨h.1.filter _, fun c hc => h.2 c (List.mem_filter.mp hc).1⟩

theorem write_keeps_wf (m : Memory) (a : Nat) (v : ByteX) (ha : a < Config.nReg) (h : m.wf = true) :
    (m.write a v).wf = true := by
  cases v with
  | byte v => exact insert_keeps_wf m a v ha h
  | x => exact erase_keeps_wf m a h

/-- Writing what a register holds already changes nothing (used for the transient exits of 20_memory.md R72). -/
theorem insert_same (m : Memory) (a : Nat) (v : Byte) (h : m.wf = true) (hr : m.read a = .byte v) : m.insert a v = m := by
  rw [wf_iff] at h
  obtain ⟨hp, -⟩ := h
  induction m with
  | nil => simp at hr
  | cons d m ih =>
    obtain ⟨k, w⟩ := d
    have hc := List.pairwise_cons.mp hp
    simp only [read_cons] at hr
    simp only [Memory.insert]
    split at hr
    · next hk => subst hk; simp_all
    · next hk =>
      have hlt : ¬ a < k := by
        intro hak
        have : ∀ l : Memory, (∀ c ∈ l, k < c.1) → Memory.read l a = .x := by
          intro l
          induction l with
          | nil => simp
          | cons e l ihl =>
            obtain ⟨k', w'⟩ := e
            intro hl
            have h1 : k < k' := hl (k', w') (by simp)
            have h2 : a ≠ k' := by omega
            rw [read_cons, if_neg h2]
            exact ihl fun c hcl => hl c (by simp [hcl])
        rw [this m hc.1] at hr
        exact ByteX.noConfusion hr
      simp [hlt, hk, ih hr hc.2]

theorem insert_insert_same (m : Memory) (a : Nat) (v : Byte) : (m.insert a v).insert a v = m.insert a v := by
  induction m with
  | nil => simp [Memory.insert]
  | cons d m ih =>
    obtain ⟨k, w⟩ := d
    by_cases h1 : a < k
    · simp [Memory.insert, h1]
    · by_cases h2 : a = k
      · subst h2; simp [Memory.insert]
      · simp [Memory.insert, h1, h2, ih]

end Sys2Proof.Laws
end

