-- ==== Sys2Proof/Laws/State.lean ====
section
/-! SUPPORT. One lemma per field and per update of the state, true by unfolding: no later proof unfolds a record update. -/

namespace Sys2Proof.Laws

open Sys2Proof
open Sys2Proof.Machine

variable {E : Type}

/-! ### `accept` -/

@[simp] theorem accept_lines (i : Instr) (s : State E) : (accept i s).lines = s.lines := rfl
@[simp] theorem accept_run (i : Instr) (s : State E) : (accept i s).run = .busy := rfl
@[simp] theorem accept_cmd (i : Instr) (s : State E) : (accept i s).cmd = some i := rfl
@[simp] theorem accept_pos (i : Instr) (s : State E) : (accept i s).pos = .step 0 0 := rfl
@[simp] theorem accept_result (i : Instr) (s : State E) : (accept i s).result = s.result := rfl
@[simp] theorem accept_chip (i : Instr) (s : State E) : (accept i s).chip = s.chip := rfl
@[simp] theorem accept_trace (i : Instr) (s : State E) : (accept i s).trace = s.trace := rfl
@[simp] theorem accept_engineReturn (i : Instr) (s : State E) : (accept i s).engineReturn = s.engineReturn := rfl
@[simp] theorem accept_env (i : Instr) (s : State E) : (accept i s).env = s.env := rfl

/-! ### `beginReset` -/

@[simp] theorem beginReset_lines (s : State E) : (beginReset s).lines = s.lines := rfl
@[simp] theorem beginReset_run (s : State E) : (beginReset s).run = .resetting := rfl
@[simp] theorem beginReset_cmd (s : State E) : (beginReset s).cmd = s.cmd := rfl
@[simp] theorem beginReset_pos (s : State E) : (beginReset s).pos = .resetStep 0 := rfl
@[simp] theorem beginReset_result (s : State E) : (beginReset s).result = s.result := rfl
@[simp] theorem beginReset_chip (s : State E) : (beginReset s).chip = s.chip := rfl
@[simp] theorem beginReset_trace (s : State E) : (beginReset s).trace = s.trace := rfl
@[simp] theorem beginReset_engineReturn (s : State E) : (beginReset s).engineReturn = s.engineReturn := rfl
@[simp] theorem beginReset_env (s : State E) : (beginReset s).env = s.env := rfl

/-! ### `endCommand` -/

@[simp] theorem endCommand_lines (f : Option E) (s : State E) : (endCommand f s).lines = s.lines := rfl
@[simp] theorem endCommand_run (f : Option E) (s : State E) : (endCommand f s).run = .idle := rfl
@[simp] theorem endCommand_cmd (f : Option E) (s : State E) : (endCommand f s).cmd = none := rfl
@[simp] theorem endCommand_pos (f : Option E) (s : State E) : (endCommand f s).pos = .noValue := rfl
@[simp] theorem endCommand_result (f : Option E) (s : State E) : (endCommand f s).result = resultOf f := rfl
@[simp] theorem endCommand_chip (f : Option E) (s : State E) : (endCommand f s).chip = s.chip := rfl
@[simp] theorem endCommand_trace (f : Option E) (s : State E) : (endCommand f s).trace = s.trace := rfl
@[simp] theorem endCommand_engineReturn (f : Option E) (s : State E) : (endCommand f s).engineReturn = s.engineReturn := rfl
@[simp] theorem endCommand_env (f : Option E) (s : State E) : (endCommand f s).env = s.env := rfl

/-! ### `endReset` -/

@[simp] theorem endReset_lines (f : Option E) (s : State E) : (endReset f s).lines = s.lines := rfl
@[simp] theorem endReset_run (f : Option E) (s : State E) : (endReset f s).run = if f.isNone then .idle else .dead := rfl
@[simp] theorem endReset_cmd (f : Option E) (s : State E) : (endReset f s).cmd = none := rfl
@[simp] theorem endReset_pos (f : Option E) (s : State E) : (endReset f s).pos = .noValue := rfl
@[simp] theorem endReset_result (f : Option E) (s : State E) : (endReset f s).result = resultOf f := rfl
@[simp] theorem endReset_chip (f : Option E) (s : State E) : (endReset f s).chip = s.chip := rfl
@[simp] theorem endReset_trace (f : Option E) (s : State E) : (endReset f s).trace = s.trace := rfl
@[simp] theorem endReset_engineReturn (f : Option E) (s : State E) : (endReset f s).engineReturn = s.engineReturn := rfl
@[simp] theorem endReset_env (f : Option E) (s : State E) : (endReset f s).env = s.env := rfl

/-! ### `endEngine` -/

@[simp] theorem endEngine_lines (f : Option E) (s : State E) : (endEngine f s).lines = s.lines := rfl
@[simp] theorem endEngine_run (f : Option E) (s : State E) : (endEngine f s).run = s.run := rfl
@[simp] theorem endEngine_cmd (f : Option E) (s : State E) : (endEngine f s).cmd = s.cmd := rfl
@[simp] theorem endEngine_pos (f : Option E) (s : State E) : (endEngine f s).pos = s.pos := rfl
@[simp] theorem endEngine_result (f : Option E) (s : State E) : (endEngine f s).result = s.result := rfl
@[simp] theorem endEngine_chip (f : Option E) (s : State E) : (endEngine f s).chip = s.chip := rfl
@[simp] theorem endEngine_trace (f : Option E) (s : State E) : (endEngine f s).trace = s.trace := rfl
@[simp] theorem endEngine_engineReturn (f : Option E) (s : State E) : (endEngine f s).engineReturn = resultOf f := rfl
@[simp] theorem endEngine_env (f : Option E) (s : State E) : (endEngine f s).env = s.env := rfl

/-! ### `wait` -/

@[simp] theorem wait_lines (t : Nat) (s : State E) : (wait t s).lines = s.lines := rfl
@[simp] theorem wait_run (t : Nat) (s : State E) : (wait t s).run = s.run := rfl
@[simp] theorem wait_cmd (t : Nat) (s : State E) : (wait t s).cmd = s.cmd := rfl
@[simp] theorem wait_pos (t : Nat) (s : State E) : (wait t s).pos = s.pos := rfl
@[simp] theorem wait_result (t : Nat) (s : State E) : (wait t s).result = s.result := rfl
@[simp] theorem wait_chip (t : Nat) (s : State E) : (wait t s).chip = s.chip := rfl
@[simp] theorem wait_trace (t : Nat) (s : State E) : (wait t s).trace = .waited t :: s.trace := rfl
@[simp] theorem wait_engineReturn (t : Nat) (s : State E) : (wait t s).engineReturn = s.engineReturn := rfl
@[simp] theorem wait_env (t : Nat) (s : State E) : (wait t s).env = s.env := rfl

/-! ### `dropMove` -/

@[simp] theorem dropMove_lines (s : State E) : (dropMove s).lines = s.lines := rfl
@[simp] theorem dropMove_run (s : State E) : (dropMove s).run = s.run := rfl
@[simp] theorem dropMove_cmd (s : State E) : (dropMove s).cmd = s.cmd := rfl
@[simp] theorem dropMove_pos (s : State E) : (dropMove s).pos = s.pos := rfl
@[simp] theorem dropMove_result (s : State E) : (dropMove s).result = s.result := rfl
@[simp] theorem dropMove_chip (s : State E) : (dropMove s).chip = s.chip := rfl
@[simp] theorem dropMove_trace (s : State E) : (dropMove s).trace = s.trace := rfl
@[simp] theorem dropMove_engineReturn (s : State E) : (dropMove s).engineReturn = s.engineReturn := rfl
@[simp] theorem dropMove_env (s : State E) : (dropMove s).env = { s.env with agenda := s.env.agenda.tail } := rfl

end Sys2Proof.Laws
end

