-- ==== Sys2Proof/Laws/Bus.lean ====
section
/-! SUPPORT. What the lines, the observer, a pin set and a list of micro-events can do: one lemma per shared operation,
to be cited instead of unfolding it. -/

namespace Sys2Proof.Laws

open Sys2Proof
open Sys2Proof.Machine
open Sys2Proof.Safety

variable {E : Type}

/-! ### Lines -/

/-- Reading a line after setting one (R21: no other line changes). -/
theorem get_set (l : Lines) (n m : Line) (v : Level) : (l.set n v).get m = if n = m then v else l.get m := by
  cases n <;> cases m <;> rfl

/-- A set of a data line leaves the control levels. -/
theorem set_data_control (l : Lines) (n : Line) (v : Level) (h : n.isControl = false) :
    (l.set n v).bdir = l.bdir ∧ (l.set n v).bc1 = l.bc1 := by
  cases n <;> simp_all [Line.isControl, Lines.set]

@[simp] theorem bit?_ofBool (b : Bool) : (Level.ofBool b).bit? = some b := by cases b <;> rfl

/-- The byte of its own bits. -/
theorem byteOfBits_bits (v : Byte) :
    byteOfBits (v.getLsbD 0) (v.getLsbD 1) (v.getLsbD 2) (v.getLsbD 3) (v.getLsbD 4) (v.getLsbD 5) (v.getLsbD 6)
      (v.getLsbD 7) = v := by
  revert v; decide +kernel

/-- The byte on the bus when its eight lines carry it (R82). -/
theorem dataByte_of_bits (l : Lines) (v : Byte) (h0 : l.d0 = Level.ofBool (v.getLsbD 0)) (h1 : l.d1 = Level.ofBool (v.getLsbD 1))
    (h2 : l.d2 = Level.ofBool (v.getLsbD 2)) (h3 : l.d3 = Level.ofBool (v.getLsbD 3)) (h4 : l.d4 = Level.ofBool (v.getLsbD 4))
    (h5 : l.d5 = Level.ofBool (v.getLsbD 5)) (h6 : l.d6 = Level.ofBool (v.getLsbD 6)) (h7 : l.d7 = Level.ofBool (v.getLsbD 7)) :
    l.dataByte = .byte v := by
  simp only [Lines.dataByte, h0, h1, h2, h3, h4, h5, h6, h7, bit?_ofBool, byteOfBits_bits]

@[simp] theorem quietLines_dataByte (v : Byte) : (quietLines v).dataByte = .byte v := by
  apply dataByte_of_bits <;> rfl

@[simp] theorem quietLines_mode (v : Byte) : (quietLines v).mode = .inactive := rfl

/-! ### Scripts -/

/-- An answer is Ok when it is (R110). -/
theorem isOk_iff (a : Answer E) : a.isOk = true ↔ a = .ok := by cases a <;> simp [Answer.isOk]

@[simp] theorem isOk_ok : (Answer.ok : Answer E).isOk = true := rfl

@[simp] theorem drop_zero {α : Type} (p : Script α) : p.drop 0 = p := rfl

theorem drop_succ {α : Type} (p : Script α) (n : Nat) : p.drop (n + 1) = p.tail.drop n := rfl

theorem drop_drop {α : Type} (p : Script α) (m n : Nat) : (p.drop m).drop n = p.drop (m + n) := by
  induction m generalizing p with
  | zero => simp
  | succ m ih => rw [Nat.succ_add]; exact ih p.tail

theorem answersOk_add (m n : Nat) (p : Script (Answer E)) :
    answersOk (m + n) p = (answersOk m p && answersOk n (p.drop m)) := by
  induction m generalizing p with
  | zero => simp [answersOk]
  | succ m ih => rw [Nat.succ_add]; simp [answersOk, ih, drop_succ, Bool.and_assoc]

/-! ### The observer -/

@[simp] theorem observe_lines (n : Line) (l0 l1 : Lines) (s : State E) : (observe n l0 l1 s).lines = s.lines := rfl
@[simp] theorem observe_run (n : Line) (l0 l1 : Lines) (s : State E) : (observe n l0 l1 s).run = s.run := rfl
@[simp] theorem observe_cmd (n : Line) (l0 l1 : Lines) (s : State E) : (observe n l0 l1 s).cmd = s.cmd := rfl
@[simp] theorem observe_pos (n : Line) (l0 l1 : Lines) (s : State E) : (observe n l0 l1 s).pos = s.pos := rfl
@[simp] theorem observe_result (n : Line) (l0 l1 : Lines) (s : State E) : (observe n l0 l1 s).result = s.result := rfl
@[simp] theorem observe_trace (n : Line) (l0 l1 : Lines) (s : State E) : (observe n l0 l1 s).trace = s.trace := rfl
@[simp] theorem observe_engineReturn (n : Line) (l0 l1 : Lines) (s : State E) :
    (observe n l0 l1 s).engineReturn = s.engineReturn := rfl
@[simp] theorem observe_pins (n : Line) (l0 l1 : Lines) (s : State E) : (observe n l0 l1 s).env.pins = s.env.pins := rfl
@[simp] theorem observe_addrDecode (n : Line) (l0 l1 : Lines) (s : State E) :
    (observe n l0 l1 s).env.addrDecode = s.env.addrDecode := rfl
@[simp] theorem observe_agenda (n : Line) (l0 l1 : Lines) (s : State E) : (observe n l0 l1 s).env.agenda = s.env.agenda := rfl

theorem commit_keeps_wf (dec : AddrDecode) (c : Chip) (d : ByteX) (h : c.regs.wf = true) : (commit dec c d).regs.wf = true := by
  obtain ⟨al, regs⟩ := c
  cases al with
  | x => rfl
  | byte a =>
    simp only [commit]
    split
    · next ha => exact write_keeps_wf _ _ _ ha h
    · cases dec with
      | havoc => rfl
      | ignore => exact h
      | aliased =>
        refine write_keeps_wf _ _ _ ?_ h
        rw [BitVec.toNat_and]
        exact Nat.lt_of_le_of_lt Nat.and_le_right (by decide)

theorem chipAfter_keeps_wf (dec : AddrDecode) (l0 l1 : Lines) (acts : Bool) (c : Chip) (h : c.regs.wf = true) :
    (chipAfter dec l0 l1 acts c).regs.wf = true := by
  unfold chipAfter
  split
  · split
    · exact h
    · rfl
  · split
    · split
      · exact h
      · exact commit_keeps_wf _ _ _ h
    · exact h

theorem observe_keeps_wf (n : Line) (l0 l1 : Lines) (s : State E) (h : s.chip.regs.wf = true) :
    (observe n l0 l1 s).chip.regs.wf = true := by
  simp only [observe]
  split
  · exact chipAfter_keeps_wf _ _ _ _ _ h
  · exact h

/-- A data line is not observed (R67). -/
theorem observe_data (n : Line) (l0 l1 : Lines) (s : State E) (h : n.isControl = false) : observe n l0 l1 s = s := by
  simp [observe, takesTransient, h]

/-! ### Micro-events -/

@[simp] theorem pinSet_lines (n : Line) (b : Bool) (s : State E) :
    (pinSet n b s).1.lines = s.lines.set n (levelAfter b s.env.pins.head) := rfl
@[simp] theorem pinSet_run (n : Line) (b : Bool) (s : State E) : (pinSet n b s).1.run = s.run := rfl
@[simp] theorem pinSet_cmd (n : Line) (b : Bool) (s : State E) : (pinSet n b s).1.cmd = s.cmd := rfl
@[simp] theorem pinSet_pos (n : Line) (b : Bool) (s : State E) : (pinSet n b s).1.pos = s.pos := rfl
@[simp] theorem pinSet_result (n : Line) (b : Bool) (s : State E) : (pinSet n b s).1.result = s.result := rfl
@[simp] theorem pinSet_trace (n : Line) (b : Bool) (s : State E) :
    (pinSet n b s).1.trace = setEntry n b s.env.pins.head :: s.trace := rfl
@[simp] theorem pinSet_engineReturn (n : Line) (b : Bool) (s : State E) :
    (pinSet n b s).1.engineReturn = s.engineReturn := rfl
@[simp] theorem pinSet_pins (n : Line) (b : Bool) (s : State E) : (pinSet n b s).1.env.pins = s.env.pins.tail := rfl
@[simp] theorem pinSet_addrDecode (n : Line) (b : Bool) (s : State E) :
    (pinSet n b s).1.env.addrDecode = s.env.addrDecode := rfl
@[simp] theorem pinSet_agenda (n : Line) (b : Bool) (s : State E) : (pinSet n b s).1.env.agenda = s.env.agenda := rfl
theorem pinSet_chip (n : Line) (b : Bool) (s : State E) :
    (pinSet n b s).1.chip = (observe n s.lines (s.lines.set n (levelAfter b s.env.pins.head)) s).chip := rfl
theorem pinSet_transients (n : Line) (b : Bool) (s : State E) : (pinSet n b s).1.env.transients =
    (observe n s.lines (s.lines.set n (levelAfter b s.env.pins.head)) s).env.transients := rfl
@[simp] theorem pinSet_failure (n : Line) (b : Bool) (s : State E) : (pinSet n b s).2 = faultOf s.env.pins.head := rfl

theorem issue_pinSet (n : Line) (b : Bool) (s : State E) : issue (.pinSet n b) s = pinSet n b s := rfl

theorem issue_wait (t : Nat) (s : State E) : issue (.wait t) s = (wait t s, none) := rfl

/-- A micro-event keeps whatever every pin set and every wait keeps. -/
theorem issue_keeps {P : State E → Prop} (hset : ∀ n b s, P s → P (pinSet n b s).1) (hwait : ∀ t s, P s → P (wait t s))
    (ev : Event) (s : State E) (h : P s) : P (issue ev s).1 := by
  cases ev with
  | pinSet n b => exact hset n b s h
  | wait t => exact hwait t s h

/-- A list of micro-events keeps whatever every pin set and every wait keeps: the induction, once. -/
theorem runEvents_keeps {P : State E → Prop} (hset : ∀ n b s, P s → P (pinSet n b s).1) (hwait : ∀ t s, P s → P (wait t s))
    (evs : List Event) (s : State E) (h : P s) : P (runEvents evs s).1 := by
  induction evs generalizing s with
  | nil => exact h
  | cons ev evs ih =>
    have h1 := issue_keeps hset hwait ev s h
    simp only [runEvents]
    split
    · next s1 he => rw [he] at h1; exact ih s1 h1
    · next s1 e he => rw [he] at h1; exact h1

theorem issue_only_bus (ev : Event) (s : State E) : OnlyBusChanged s (issue ev s).1 := by
  cases ev with
  | pinSet n b => constructor <;> simp [issue_pinSet]
  | wait t => constructor <;> rfl

theorem issue_engineReturn (ev : Event) (s : State E) : (issue ev s).1.engineReturn = s.engineReturn := by
  cases ev with
  | pinSet n b => simp [issue_pinSet]
  | wait t => rfl

theorem runEvents_only_bus (evs : List Event) (s : State E) : OnlyBusChanged s (runEvents evs s).1 :=
  runEvents_keeps (P := OnlyBusChanged s)
    (fun _ _ _ h => ⟨by simp [h.run], by simp [h.cmd], by simp [h.pos], by simp [h.result], by simp [h.addrDecode],
      by simp [h.agenda]⟩)
    (fun _ _ h => ⟨h.run, h.cmd, h.pos, h.result, h.addrDecode, h.agenda⟩) evs s
    ⟨rfl, rfl, rfl, rfl, rfl, rfl⟩

theorem runEvents_engineReturn (evs : List Event) (s : State E) : (runEvents evs s).1.engineReturn = s.engineReturn :=
  runEvents_keeps (P := fun t => t.engineReturn = s.engineReturn) (fun _ _ _ h => by simp [h]) (fun _ _ h => h) evs s rfl

/-! ### Lists of micro-events -/

@[simp] theorem runEvents_nil (s : State E) : runEvents [] s = (s, none) := rfl

theorem runEvents_cons (ev : Event) (evs : List Event) (s : State E) :
    runEvents (ev :: evs) s = match issue ev s with
      | (s1, none) => runEvents evs s1
      | (s1, some e) => (s1, some e) := rfl

/-- Two lists one after the other: the second runs only if the first did not fail (R112). -/
theorem runEvents_append (xs ys : List Event) (s : State E) :
    runEvents (xs ++ ys) s = match runEvents xs s with
      | (s1, none) => runEvents ys s1
      | (s1, some e) => (s1, some e) := by
  induction xs generalizing s with
  | nil => rfl
  | cons x xs ih =>
    rw [List.cons_append, runEvents_cons, runEvents_cons]
    split
    · exact ih _
    · rfl

/-- A first list that did not fail goes over into the second. -/
theorem runEvents_append_ok {xs ys : List Event} {s s1 : State E} (h : runEvents xs s = (s1, none)) :
    runEvents (xs ++ ys) s = runEvents ys s1 := by rw [runEvents_append, h]

/-- A pin set that is answered Ok goes over into the rest. -/
theorem runEvents_set_ok {n : Line} {b : Bool} {evs : List Event} {s : State E} (h : s.env.pins.head = .ok) :
    runEvents (.pinSet n b :: evs) s = runEvents evs (pinSet n b s).1 := by
  have : issue (.pinSet n b) s = ((pinSet n b s).1, none) := by rw [issue_pinSet]; apply Prod.ext <;> simp [h, faultOf]
  rw [runEvents_cons, this]

theorem runEvents_wait (t : Nat) (evs : List Event) (s : State E) : runEvents (.wait t :: evs) s = runEvents evs (wait t s) := rfl

@[simp] theorem pinCount_nil : pinCount [] = 0 := rfl
@[simp] theorem pinCount_set (n : Line) (b : Bool) (evs : List Event) : pinCount (.pinSet n b :: evs) = pinCount evs + 1 := by
  rw [pinCount, List.countP_cons_of_pos (by rfl), pinCount]
@[simp] theorem pinCount_wait (t : Nat) (evs : List Event) : pinCount (.wait t :: evs) = pinCount evs := by
  rw [pinCount, List.countP_cons_of_neg (by simp [isPinSet]), pinCount]
theorem pinCount_append (xs ys : List Event) : pinCount (xs ++ ys) = pinCount xs + pinCount ys := List.countP_append

@[simp] theorem doneEntries_nil : (doneEntries [] : List (TraceEntry E)) = [] := rfl
theorem doneEntries_cons (ev : Event) (evs : List Event) :
    (doneEntries (ev :: evs) : List (TraceEntry E)) = doneEntries evs ++ [doneEntry ev] := by
  simp [doneEntries]
theorem doneEntries_append (xs ys : List Event) :
    (doneEntries (xs ++ ys) : List (TraceEntry E)) = doneEntries ys ++ doneEntries xs := by
  simp [doneEntries]

theorem linesAfter_append (xs ys : List Event) (l : Lines) : linesAfter (xs ++ ys) l = linesAfter ys (linesAfter xs l) := by
  induction xs generalizing l with
  | nil => rfl
  | cons x xs ih => cases x <;> exact ih _

/-- The level a list of micro-events sets a line to last, if it sets it. -/
def lastSet (n : Line) : List Event → Option Bool
  | [] => none
  | .pinSet m b :: evs => (lastSet n evs).or (if m = n then some b else none)
  | .wait _ :: evs => lastSet n evs

/-- A line after a list answered Ok has the level last set, or the one it had. -/
theorem get_linesAfter (n : Line) (evs : List Event) (l : Lines) :
    (linesAfter evs l).get n = ((lastSet n evs).map Level.ofBool).getD (l.get n) := by
  induction evs generalizing l with
  | nil => rfl
  | cons ev evs ih =>
    cases ev with
    | wait t => exact ih l
    | pinSet m b =>
      rw [linesAfter, ih, get_set, lastSet]
      cases lastSet n evs <;> by_cases h : m = n <;> simp [h]
/-- Every pin set answered Ok: no failure, and what the controller's side becomes. -/
theorem runEvents_ok (evs : List Event) (s : State E) (h : answersOk (pinCount evs) s.env.pins = true) :
    (runEvents evs s).2 = none ∧ (runEvents evs s).1.lines = linesAfter evs s.lines ∧
      (runEvents evs s).1.trace = doneEntries evs ++ s.trace ∧
      (runEvents evs s).1.env.pins = s.env.pins.drop (pinCount evs) := by
  induction evs generalizing s with
  | nil => simp [linesAfter]
  | cons ev evs ih =>
    cases ev with
    | pinSet n b =>
      simp only [pinCount_set, answersOk, Bool.and_eq_true, isOk_iff] at h
      have := ih (pinSet n b s).1 (by simpa using h.2)
      rw [runEvents_set_ok h.1]
      simpa [linesAfter, h.1, levelAfter, doneEntries_cons, doneEntry, setEntry, drop_succ] using this
    | wait t =>
      have := ih (wait t s) (by simpa using h)
      simpa [runEvents_wait, linesAfter, doneEntries_cons, doneEntry] using this

/-- The first pin set answered Err: nothing after it, and what the controller's side becomes (R112, R172). -/
theorem runEvents_fail (pre : List Event) (n : Line) (b : Bool) (post : List Event) (s : State E) (e : E)
    (hok : answersOk (pinCount pre) s.env.pins = true) (herr : (s.env.pins.drop (pinCount pre)).head = .err e) :
    runEvents (pre ++ .pinSet n b :: post) s = ((pinSet n b (runEvents pre s).1).1, some e) := by
  obtain ⟨h2, -, -, hp⟩ := runEvents_ok pre s hok
  have hs : runEvents pre s = ((runEvents pre s).1, none) := Prod.ext rfl h2
  have hi : issue (.pinSet n b) (runEvents pre s).1 = ((pinSet n b (runEvents pre s).1).1, some e) := by
    rw [issue_pinSet]; exact Prod.ext rfl (by simp [hp, herr, faultOf])
  rw [runEvents_append_ok hs, runEvents_cons, hi]

/-- What a set of a control line makes of the chip, by the settled or transient exit (R67 to R70). -/
theorem pinSet_control_chip (n : Line) (b : Bool) (s : State E) (hn : n.isControl = true) :
    (pinSet n b s).1.chip = chipAfter s.env.addrDecode s.lines (s.lines.set n (levelAfter b s.env.pins.head))
      (responds s) s.chip := by
  simp only [pinSet_chip, observe, hn, if_true]

theorem pinSet_control_transients (n : Line) (b : Bool) (s : State E) (hn : n.isControl = true) :
    (pinSet n b s).1.env.transients =
      if isExit s.lines.mode (s.lines.set n (levelAfter b s.env.pins.head)).mode && !lastWasWait s.trace
      then s.env.transients.tail else s.env.transients := by
  simp only [pinSet_transients, observe, takesTransient, hn, Bool.true_and]

theorem pinSet_data_chip (n : Line) (b : Bool) (s : State E) (hn : n.isControl = false) :
    (pinSet n b s).1.chip = s.chip ∧ (pinSet n b s).1.env.transients = s.env.transients := by
  simp [pinSet_chip, pinSet_transients, observe_data _ _ _ _ hn]

/-- Data sets and waits leave the observer alone (R67). -/
theorem runEvents_data_chip (evs : List Event) (s : State E)
    (hd : ∀ n b, Event.pinSet n b ∈ evs → n.isControl = false) :
    (runEvents evs s).1.chip = s.chip ∧ (runEvents evs s).1.env.transients = s.env.transients := by
  induction evs generalizing s with
  | nil => exact ⟨rfl, rfl⟩
  | cons ev evs ih =>
    have hi : (issue ev s).1.chip = s.chip ∧ (issue ev s).1.env.transients = s.env.transients := by
      cases ev with
      | pinSet n b => exact pinSet_data_chip n b s (hd n b (by simp))
      | wait t => exact ⟨rfl, rfl⟩
    rw [runEvents_cons]
    split
    · next s1 he =>
      rw [he] at hi
      have := ih s1 fun n b hm => hd n b (List.mem_cons_of_mem _ hm)
      exact ⟨this.1.trans hi.1, this.2.trans hi.2⟩
    · next s1 e he => rw [he] at hi; exact hi

end Sys2Proof.Laws
end

