-- ==== Sys2Proof/Laws/Decode.lean ====
section
/-! SUPPORT. The fields of a word put together from fields, and a word put together again from its fields. -/

namespace Sys2Proof.Laws

open Sys2Proof

theorem getLsbD_commandWord (op sel : Byte) (imm : Period) (i : Nat) (hi : i < 32) :
    (commandWord op sel imm).getLsbD i =
      if i < 16 then imm.getLsbD i else if i < 24 then sel.getLsbD (i - 16) else op.getLsbD (i - 24) := by
  simp only [commandWord, BitVec.getLsbD_or, BitVec.getLsbD_shiftLeft, BitVec.getLsbD_setWidth, hi, decide_true, Bool.true_and]
  by_cases h1 : i < 16
  · have h2 : i < 24 := by omega
    simp [h1, h2]
  · by_cases h2 : i < 24
    · simp [h1, h2, BitVec.getLsbD_of_ge imm i (by omega), show i - 16 < 32 by omega]
    · simp [h1, h2, BitVec.getLsbD_of_ge imm i (by omega), BitVec.getLsbD_of_ge sel (i - 16) (by omega), show i - 24 < 32 by omega]

@[simp] theorem opField_commandWord (op sel : Byte) (imm : Period) : opField (commandWord op sel imm) = op := by
  apply BitVec.eq_of_getLsbD_eq
  intro i hi
  rw [opField, BitVec.getLsbD_extractLsb', getLsbD_commandWord _ _ _ _ (by omega)]
  simp [hi, show ¬ 24 + i < 16 by omega]

@[simp] theorem selField_commandWord (op sel : Byte) (imm : Period) : selField (commandWord op sel imm) = sel := by
  apply BitVec.eq_of_getLsbD_eq
  intro i hi
  rw [selField, BitVec.getLsbD_extractLsb', getLsbD_commandWord _ _ _ _ (by omega)]
  simp [hi, show 16 + i < 24 by omega]

@[simp] theorem immField_commandWord (op sel : Byte) (imm : Period) : immField (commandWord op sel imm) = imm := by
  apply BitVec.eq_of_getLsbD_eq
  intro i hi
  rw [immField, BitVec.getLsbD_extractLsb', getLsbD_commandWord _ _ _ _ (by omega)]
  simp [hi]

/-- A command word is the word of its three fields (R91). -/
theorem commandWord_fields (w : BitVec 32) : commandWord (opField w) (selField w) (immField w) = w := by
  apply BitVec.eq_of_getLsbD_eq
  intro i hi
  rw [getLsbD_commandWord _ _ _ _ hi]
  simp only [opField, selField, immField, BitVec.getLsbD_extractLsb']
  by_cases h1 : i < 16
  · simp [h1]
  · by_cases h2 : i < 24
    · simp [h1, h2, show i - 16 < 8 by omega, show 16 + (i - 16) = i by omega]
    · simp [h1, h2, show i - 24 < 8 by omega, show 24 + (i - 24) = i by omega]

theorem getLsbD_twoBytes (hi lo : Byte) (i : Nat) (h : i < 16) :
    (twoBytes hi lo).getLsbD i = if i < 8 then lo.getLsbD i else hi.getLsbD (i - 8) := by
  simp only [twoBytes, BitVec.getLsbD_or, BitVec.getLsbD_shiftLeft, BitVec.getLsbD_setWidth, h, decide_true, Bool.true_and]
  by_cases h1 : i < 8
  · simp [h1]
  · simp [h1, BitVec.getLsbD_of_ge lo i (by omega), show i - 8 < 16 by omega]

@[simp] theorem highByte_twoBytes (hi lo : Byte) : highByte (twoBytes hi lo) = hi := by
  apply BitVec.eq_of_getLsbD_eq
  intro i h
  rw [highByte, BitVec.getLsbD_extractLsb', getLsbD_twoBytes _ _ _ (by omega)]
  simp [h]

@[simp] theorem lowByte_twoBytes (hi lo : Byte) : lowByte (twoBytes hi lo) = lo := by
  apply BitVec.eq_of_getLsbD_eq
  intro i h
  rw [lowByte, BitVec.getLsbD_extractLsb', getLsbD_twoBytes _ _ _ (by omega)]
  simp [h]

/-- Sixteen bits are their two bytes (R85). -/
theorem twoBytes_bytes (f : Period) : twoBytes (highByte f) (lowByte f) = f := by
  apply BitVec.eq_of_getLsbD_eq
  intro i h
  rw [getLsbD_twoBytes _ _ _ h]
  simp only [highByte, lowByte, BitVec.getLsbD_extractLsb']
  by_cases h1 : i < 8
  · simp [h1]
  · simp [h1, show i - 8 < 8 by omega, show 8 + (i - 8) = i by omega]

theorem byteImm_eq (b : Byte) : byteImm b = twoBytes 0 b := by
  simp [byteImm, twoBytes]

@[simp] theorem highByte_byteImm (b : Byte) : highByte (byteImm b) = 0 := by rw [byteImm_eq, highByte_twoBytes]

@[simp] theorem lowByte_byteImm (b : Byte) : lowByte (byteImm b) = b := by rw [byteImm_eq, lowByte_twoBytes]

/-- An immediate with a zero high byte is its low byte (R91). -/
theorem byteImm_lowByte (f : Period) (h : highByte f = 0) : byteImm (lowByte f) = f := by
  rw [byteImm_eq, ← h, twoBytes_bytes]

theorem lowByte_toNat (f : Period) : (lowByte f).toNat = f.toNat % 256 := by simp [lowByte]

theorem highByte_toNat (f : Period) : (highByte f).toNat = f.toNat / 256 := by
  simp only [highByte, BitVec.extractLsb'_toNat, Nat.shiftRight_eq_div_pow]
  exact Nat.mod_eq_of_lt (by have := f.isLt; omega)

theorem highByte_eq_zero (f : Period) : highByte f = 0 ↔ f.toNat < 0x100 := by
  rw [← BitVec.toNat_inj, highByte_toNat]
  show f.toNat / 256 = 0 ↔ f.toNat < 0x100
  omega

end Sys2Proof.Laws
end

