-- ==== Sys2Proof/Laws/Engine.lean ====
section
/-! SUPPORT. What each part of a transaction makes of the lines, the chip and the inputs when its pin sets are answered Ok,
and the transaction put together from its parts. -/

namespace Sys2Proof.Laws

open Sys2Proof
open Sys2Proof.Machine
open Sys2Proof.Safety

variable {E : Type}

/-! ### Two control sets -/

/-- Two pin sets answered Ok are two pin sets. -/
theorem runEvents_two_ok (n m : Line) (x y : Bool) (s : State E) (h : answersOk 2 s.env.pins = true) :
    runEvents [.pinSet n x, .pinSet m y] s = ((pinSet m y (pinSet n x s).1).1, none) := by
  simp only [answersOk, Bool.and_eq_true, isOk_iff] at h
  rw [runEvents_set_ok h.1, runEvents_set_ok (by simpa using h.2.1), runEvents_nil]

/-- The chip after a mode entry that sets BDIR to `x` and BC1 to `y`. -/
theorem entry_chip (x y : Bool) (s : State E) (h : answersOk 2 s.env.pins = true) :
    (runEvents [.pinSet .bdir x, .pinSet .bc1 y] s).1.chip =
      chipAfter s.env.addrDecode (s.lines.set .bdir (Level.ofBool x))
        ((s.lines.set .bdir (Level.ofBool x)).set .bc1 (Level.ofBool y))
        (if takesTransient .bdir s.lines (s.lines.set .bdir (Level.ofBool x)) s then s.env.transients.tail.head
          else s.env.transients.head)
        (chipAfter s.env.addrDecode s.lines (s.lines.set .bdir (Level.ofBool x)) (responds s) s.chip) := by
  have h' := h
  simp only [answersOk, Bool.and_eq_true, isOk_iff] at h'
  rw [runEvents_two_ok _ _ _ _ _ h, pinSet_control_chip _ _ _ rfl, pinSet_control_chip _ _ _ rfl]
  simp only [pinSet_lines, pinSet_addrDecode, pinSet_pins, h'.1, h'.2.1, levelAfter, responds, pinSet_trace, setEntry, lastWasWait,
    pinSet_transients, observe, Bool.false_or]
  split <;> rfl

theorem set_bdir_dataByte (l : Lines) (v : Level) : (l.set .bdir v).dataByte = l.dataByte := rfl

theorem set_bc1_dataByte (l : Lines) (v : Level) : (l.set .bc1 v).dataByte = l.dataByte := rfl

/-- `UINA` on the chip (20_memory.md R68, R69). -/
theorem inactive_chip (s : State E) (h : answersOk 2 s.env.pins = true) :
    (runEvents inactiveEvents s).1.chip =
      if s.mode = .addressLatch ∧ responds s = true then { s.chip with al := s.lines.dataByte }
      else if s.mode = .write ∧ responds s = true then commit s.env.addrDecode s.chip s.lines.dataByte
      else s.chip := by
  rw [inactiveEvents, entry_chip _ _ _ h]
  rcases h1 : s.lines.bdir <;> rcases h2 : s.lines.bc1 <;> rcases h3 : responds s <;>
    simp [chipAfter, Lines.mode, State.mode, busMode, Lines.set, h1, h2, isExit, Level.ofBool]
  all_goals rfl

/-- `UADR` on the chip: a `Write` of step 0 is left at step 1, transiently (R212). -/
theorem address_chip (s : State E) (h : answersOk 2 s.env.pins = true) :
    (runEvents addressEvents s).1.chip =
      if s.lines.bc1 = .x then Chip.lost
      else if s.lines.bc1 = .low ∧ s.env.transients.head = true then commit s.env.addrDecode s.chip s.lines.dataByte
      else s.chip := by
  rw [addressEvents, entry_chip _ _ _ h]
  rcases h1 : s.lines.bdir <;> rcases h2 : s.lines.bc1 <;> rcases h3 : s.env.transients.head <;>
    simp [chipAfter, Lines.mode, busMode, Lines.set, h1, h2, isExit, Level.ofBool, takesTransient]
  all_goals rfl

/-- `UWRT` on the chip. -/
theorem write_chip (s : State E) (h : answersOk 2 s.env.pins = true) :
    (runEvents writeEvents s).1.chip =
      if s.lines.bc1 = .x then Chip.lost
      else if s.lines.bc1 = .high ∧ s.env.transients.head = true then { s.chip with al := s.lines.dataByte }
      else s.chip := by
  rw [writeEvents, entry_chip _ _ _ h]
  rcases h1 : s.lines.bdir <;> rcases h2 : s.lines.bc1 <;> rcases h3 : s.env.transients.head <;>
    simp [chipAfter, Lines.mode, busMode, Lines.set, h1, h2, isExit, Level.ofBool, takesTransient]
  all_goals rfl

/-! ### Parts of a transaction -/

theorem runEvents_eq_ok (evs : List Event) (s : State E) (h : answersOk (pinCount evs) s.env.pins = true) :
    runEvents evs s = ((runEvents evs s).1, none) := Prod.ext rfl (runEvents_ok evs s h).1

@[simp] theorem pinCount_inactive : pinCount inactiveEvents = 2 := rfl
@[simp] theorem pinCount_address : pinCount addressEvents = 2 := rfl
@[simp] theorem pinCount_write : pinCount writeEvents = 2 := rfl
@[simp] theorem pinCount_drive (v : Byte) : pinCount (driveEvents v) = 8 := rfl
@[simp] theorem pinCount_settle : pinCount settleEvents = 0 := rfl
@[simp] theorem pinCount_txn (a v : Byte) : pinCount (txnEvents a v) = 24 := rfl
@[simp] theorem length_txn (a v : Byte) : (txnEvents a v).length = 28 := rfl

/-- `drive_byte` sets data lines only (R116). -/
theorem drive_is_data (v : Byte) (n : Line) (b : Bool) (h : Event.pinSet n b ∈ driveEvents v) : n.isControl = false := by
  simp only [driveEvents, List.mem_cons, Event.pinSet.injEq, List.not_mem_nil, or_false] at h
  rcases h with h | h | h | h | h | h | h | h <;> (rw [h.1]; rfl)

theorem drive_dataByte (v : Byte) (l : Lines) : (linesAfter (driveEvents v) l).dataByte = .byte v := by
  apply dataByte_of_bits <;> rfl

theorem drive_bdir (v : Byte) (l : Lines) : (linesAfter (driveEvents v) l).bdir = l.bdir := rfl

theorem drive_bc1 (v : Byte) (l : Lines) : (linesAfter (driveEvents v) l).bc1 = l.bc1 := rfl

/-- The lines after a transaction that did not fail (R124). -/
theorem linesAfter_txn (a v : Byte) (l : Lines) : linesAfter (txnEvents a v) l = quietLines v := rfl

/-- A byte driven and a settle delay: the byte on the bus, the chip untouched, the next exit settled. -/
theorem drive_settle (v : Byte) (s : State E) (h : answersOk 8 s.env.pins = true) :
    let t := (runEvents (driveEvents v ++ settleEvents) s).1
    t.lines = linesAfter (driveEvents v) s.lines ∧ t.chip = s.chip ∧ t.env.transients = s.env.transients ∧
      lastWasWait t.trace = true ∧ t.env.pins = s.env.pins.drop 8 ∧ t.env.addrDecode = s.env.addrDecode ∧
      runEvents (driveEvents v ++ settleEvents) s = (t, none) := by
  have hc : pinCount (driveEvents v ++ settleEvents) = 8 := rfl
  have ho := runEvents_ok (driveEvents v ++ settleEvents) s (by rw [hc]; exact h)
  have hd := runEvents_data_chip (driveEvents v ++ settleEvents) s (by
    intro n b hm
    rcases List.mem_append.mp hm with hm | hm
    · exact drive_is_data v n b hm
    · simp [settleEvents] at hm)
  exact ⟨ho.2.1, hd.1, hd.2, by rw [ho.2.2.1]; rfl, ho.2.2.2, (runEvents_only_bus _ s).addrDecode, Prod.ext rfl ho.1⟩

/-- The address latched and the bus back in `Inactive` (R68, R126): from `AddressLatch` with a byte standing through a wait. -/
theorem leave_address (a : Byte) (s : State E) (h : answersOk 2 s.env.pins = true) (hm : s.lines.mode = .addressLatch)
    (hd : s.lines.dataByte = .byte a) (hw : lastWasWait s.trace = true) :
    (runEvents inactiveEvents s).1.chip = { s.chip with al := .byte a } := by
  rw [inactive_chip s h, hd]; simp [State.mode, hm, responds, hw]

/-- The value committed and the bus back in `Inactive` (R69, R126): from `Write` with a byte standing through a wait. -/
theorem leave_write (v : Byte) (s : State E) (h : answersOk 2 s.env.pins = true) (hm : s.lines.mode = .write)
    (hd : s.lines.dataByte = .byte v) (hw : lastWasWait s.trace = true) :
    (runEvents inactiveEvents s).1.chip = commit s.env.addrDecode s.chip (.byte v) := by
  rw [inactive_chip s h, hd]; simp [State.mode, hm, responds, hw]

/-- The chip after the transient exit of a transaction's step 1 (R68, R69, R212). -/
def chipAfterEntry (s : State E) : Chip :=
  if s.lines.bc1 = .x then Chip.lost
  else if s.lines.bc1 = .low ∧ s.env.transients.head = true then commit s.env.addrDecode s.chip s.lines.dataByte
  else s.chip

/-- From known levels and in sync, step 1 changes nothing on the chip (R72). -/
theorem chipAfterEntry_inSync (s : State E) (hk : ControlKnown s.lines) (hs : InSync s) : chipAfterEntry s = s.chip := by
  unfold chipAfterEntry
  rw [if_neg hk.2]
  split
  · exact hs
  · rfl

/-- The transaction cut where the chip can change. -/
theorem txnEvents_parts (a v : Byte) : txnEvents a v = addressEvents ++ ((driveEvents a ++ settleEvents) ++ (inactiveEvents ++
    ((settleEvents ++ driveEvents v) ++ (writeEvents ++ (settleEvents ++ (inactiveEvents ++ settleEvents)))))) := by
  simp [txnEvents]

/-- A list answered Ok, with everything later proofs ask of it. -/
theorem runEvents_part (evs : List Event) (s : State E) (m n : Nat) (hm : pinCount evs = m)
    (h : answersOk (m + n) s.env.pins = true) :
    ∃ t, runEvents evs s = (t, none) ∧ t = (runEvents evs s).1 ∧ t.lines = linesAfter evs s.lines ∧
      t.trace = doneEntries evs ++ s.trace ∧ t.env.pins = s.env.pins.drop m ∧ answersOk n t.env.pins = true ∧
      t.env.addrDecode = s.env.addrDecode := by
  subst hm
  rw [answersOk_add, Bool.and_eq_true] at h
  have ho := runEvents_ok evs s h.1
  exact ⟨(runEvents evs s).1, Prod.ext rfl ho.1, rfl, ho.2.1, ho.2.2.1, ho.2.2.2, by rw [ho.2.2.2]; exact h.2,
    (runEvents_only_bus evs s).addrDecode⟩

theorem answersOk_mono {m n : Nat} (hmn : m ≤ n) {p : Script (Answer E)} (h : answersOk n p = true) : answersOk m p = true := by
  obtain ⟨k, rfl⟩ := Nat.exists_eq_add_of_le hmn
  rw [answersOk_add, Bool.and_eq_true] at h
  exact h.1

/-- What a transaction answered Ok makes of the chip, from any start (R67 to R72). -/
theorem txn_chip (a v : Byte) (s : State E) (h : answersOk 24 s.env.pins = true) :
    (runEvents (txnEvents a v) s).1.chip =
      commit s.env.addrDecode { chipAfterEntry s with al := .byte a } (.byte v) := by
  obtain ⟨s1, e1, d1, l1, t1, -, p1, a1⟩ := runEvents_part addressEvents s 2 22 rfl h
  obtain ⟨s2, e2, d2, l2, t2, -, p2, a2⟩ := runEvents_part (driveEvents a ++ settleEvents) s1 8 14 rfl p1
  obtain ⟨s3, e3, d3, l3, t3, -, p3, a3⟩ := runEvents_part inactiveEvents s2 2 12 rfl p2
  obtain ⟨s4, e4, d4, l4, t4, -, p4, a4⟩ := runEvents_part (settleEvents ++ driveEvents v) s3 8 4 rfl p3
  obtain ⟨s5, e5, d5, l5, t5, -, p5, a5⟩ := runEvents_part writeEvents s4 2 2 rfl p4
  obtain ⟨s6, e6, d6, l6, t6, -, p6, a6⟩ := runEvents_part settleEvents s5 0 2 rfl p5
  obtain ⟨s7, e7, d7, l7, t7, -, p7, a7⟩ := runEvents_part inactiveEvents s6 2 0 rfl p6
  have c1 : s1.chip = chipAfterEntry s := by rw [d1]; exact address_chip s (answersOk_mono (by decide) h)
  have c2 : s2.chip = s1.chip := by
    rw [d2]
    exact (drive_settle a s1 (answersOk_mono (by decide) p1)).2.1
  have c3 : s3.chip = { s2.chip with al := .byte a } := by
    rw [d3]
    refine leave_address a s2 (answersOk_mono (by decide) p2) ?_ ?_ ?_
    · rw [l2, l1]; rfl
    · rw [l2, linesAfter_append]; exact drive_dataByte a _
    · rw [t2]; rfl
  have c4 : s4.chip = s3.chip := by
    rw [d4]
    refine (runEvents_data_chip _ s3 fun n b hm => ?_).1
    rcases List.mem_append.mp hm with hm | hm
    · simp [settleEvents] at hm
    · exact drive_is_data v n b hm
  have b4 : s4.lines.bc1 = .low := by rw [l4, linesAfter_append, drive_bc1, l3]; rfl
  have c5 : s5.chip = s4.chip := by
    rw [d5, write_chip s4 (answersOk_mono (by decide) p4)]
    simp [b4]
  have c6 : s6.chip = s5.chip := by rw [d6]; rfl
  have c7 : s7.chip = commit s6.env.addrDecode s6.chip (.byte v) := by
    rw [d7]
    refine leave_write v s6 (answersOk_mono (by decide) p6) ?_ ?_ ?_
    · rw [l6, l5]; rfl
    · rw [l6, l5, l4, linesAfter_append]; exact drive_dataByte v (linesAfter settleEvents s3.lines)
    · rw [t6]; rfl
  have e : (runEvents (txnEvents a v) s).1 = (runEvents settleEvents s7).1 := by
    rw [txnEvents_parts, runEvents_append_ok e1, runEvents_append_ok e2, runEvents_append_ok e3, runEvents_append_ok e4,
      runEvents_append_ok e5, runEvents_append_ok e6, runEvents_append_ok e7]
  rw [e]
  show s7.chip = _
  rw [c7, c6, c5, c4, c3, c2, c1, a6, a5, a4, a3, a2, a1]

end Sys2Proof.Laws
end

