-- ==== Sys2Proof/Laws/Failure.lean ====
section
/-! SUPPORT. What the first failing pin set of a transaction leaves on the chip, step by step (40_bus_engine.md R128). -/

namespace Sys2Proof.Laws

open Sys2Proof
open Sys2Proof.Machine
open Sys2Proof.Safety

variable {E : Type}

/-- A failed set of BDIR: the observer loses everything (R70). -/
theorem bdir_fail (b : Bool) (s : State E) (e : E) (h : s.env.pins.head = .err e) :
    (pinSet .bdir b s).1.chip = Chip.lost := by
  rw [pinSet_control_chip _ _ _ rfl, h]; rfl

/-- A failed set of BC1 while BDIR is high: the observer loses everything (R70). -/
theorem bc1_fail_high (b : Bool) (s : State E) (e : E) (h : s.env.pins.head = .err e) (hh : s.lines.bdir = .high) :
    (pinSet .bc1 b s).1.chip = Chip.lost := by
  rw [pinSet_control_chip _ _ _ rfl, h]; simp [chipAfter, Lines.set, levelAfter, Lines.mode, hh, busMode]

/-- A failed set of BC1 while BDIR is low: nothing happens on the chip (R70). -/
theorem bc1_fail_low (b : Bool) (s : State E) (e : E) (h : s.env.pins.head = .err e) (hh : s.lines.bdir = .low) :
    (pinSet .bc1 b s).1.chip = s.chip := by
  rw [pinSet_control_chip _ _ _ rfl, h]; simp [chipAfter, Lines.set, levelAfter, Lines.mode, hh, busMode]

/-- The first set on the way out of `AddressLatch`, after a wait: the byte is latched (R68). -/
theorem leave_address_first (s : State E) (h : answersOk 1 s.env.pins = true) (hm : s.lines.bdir = .high ∧ s.lines.bc1 = .high)
    (hw : lastWasWait s.trace = true) :
    (runEvents [.pinSet .bdir false] s).1.chip = { s.chip with al := s.lines.dataByte } := by
  have h1 : s.env.pins.head = .ok := by simpa [answersOk, isOk_iff] using h
  rw [runEvents_set_ok h1, runEvents_nil, pinSet_control_chip _ _ _ rfl, h1]
  simp [chipAfter, Lines.set, levelAfter, Lines.mode, hm, busMode, isExit, responds, hw, Level.ofBool]; rfl

/-- The first set on the way out of `Write`, after a wait: the byte is committed (R69). -/
theorem leave_write_first (s : State E) (h : answersOk 1 s.env.pins = true) (hm : s.lines.bdir = .high ∧ s.lines.bc1 = .low)
    (hw : lastWasWait s.trace = true) :
    (runEvents [.pinSet .bdir false] s).1.chip = commit s.env.addrDecode s.chip s.lines.dataByte := by
  have h1 : s.env.pins.head = .ok := by simpa [answersOk, isOk_iff] using h
  rw [runEvents_set_ok h1, runEvents_nil, pinSet_control_chip _ _ _ rfl, h1]
  simp [chipAfter, Lines.set, levelAfter, Lines.mode, hm, busMode, isExit, responds, hw, Level.ofBool]; rfl

/-- Entering `AddressLatch`, then data lines and waits: what step 1's exit did, no more. -/
theorem entry_then_data_chip (d : List Event) (hd : ∀ n b, Event.pinSet n b ∈ d → n.isControl = false) (u : State E)
   (h : answersOk (2 + pinCount d) u.env.pins = true) :
   (runEvents (addressEvents ++ d) u).1.chip = chipAfterEntry u := by
  obtain ⟨s1, e1, d1, l1, t1, -, p1, a1⟩ := runEvents_part addressEvents u 2 (pinCount d) rfl h
  rw [runEvents_append_ok e1, (runEvents_data_chip d s1 hd).1, d1]
  exact address_chip u (answersOk_mono (by omega) h)

/-- The address phase, then data lines and waits: the address is latched. -/
theorem latched_then_data_chip (a : Byte) (d : List Event) (u : State E) (hd : ∀ n b, Event.pinSet n b ∈ d → n.isControl = false)
   (h : answersOk (12 + pinCount d) u.env.pins = true) :
     (runEvents (addressEvents ++ ((driveEvents a ++ settleEvents) ++ (inactiveEvents ++ d))) u).1.chip =
      { chipAfterEntry u with al := .byte a } := by
  rw [show 12 + pinCount d = 2 + (8 + (2 + pinCount d)) by omega] at h
  obtain ⟨s1, e1, d1, l1, t1, -, p1, a1⟩ := runEvents_part addressEvents u 2 _ rfl h
  obtain ⟨s2, e2, d2, l2, t2, -, p2, a2⟩ := runEvents_part (driveEvents a ++ settleEvents) s1 8 _ rfl p1
  obtain ⟨s3, e3, d3, l3, t3, -, p3, a3⟩ := runEvents_part inactiveEvents s2 2 _ rfl p2
  rw [runEvents_append_ok e1, runEvents_append_ok e2, runEvents_append_ok e3, (runEvents_data_chip d s3 hd).1, d3]
  have c1 : s1.chip = chipAfterEntry u := by
    rw [d1]; exact address_chip u (answersOk_mono (by omega) h)
  have c2 : s2.chip = s1.chip := by rw [d2]; exact (drive_settle a s1 (answersOk_mono (by omega) p1)).2.1
  rw [leave_address a s2 (answersOk_mono (by omega) p2) (by rw [l2, l1]; rfl)
    (by rw [l2, linesAfter_append]; exact drive_dataByte a _) (by rw [t2]; rfl), c2, c1]

/-- The address phase up to its first way out (step 11): the address is latched. -/
theorem latched_chip (a : Byte) (u : State E) (h : answersOk 11 u.env.pins = true) :
    (runEvents (addressEvents ++ ((driveEvents a ++ settleEvents) ++ [.pinSet .bdir false])) u).1.chip =
      { chipAfterEntry u with al := .byte a } := by
  obtain ⟨s1, e1, d1, l1, t1, -, p1, a1⟩ := runEvents_part addressEvents u 2 9 rfl h
  obtain ⟨s2, e2, d2, l2, t2, -, p2, a2⟩ := runEvents_part (driveEvents a ++ settleEvents) s1 8 1 rfl p1
  rw [runEvents_append_ok e1, runEvents_append_ok e2]
  have c1 : s1.chip = chipAfterEntry u := by
    rw [d1]; exact address_chip u (answersOk_mono (by omega) h)
  have c2 : s2.chip = s1.chip := by rw [d2]; exact (drive_settle a s1 (answersOk_mono (by omega) p1)).2.1
  rw [leave_address_first s2 p2 (by rw [l2, l1]; exact ⟨rfl, rfl⟩) (by rw [t2]; rfl), c2, c1]
  rw [l2, linesAfter_append]
  have : (linesAfter settleEvents (linesAfter (driveEvents a) s1.lines)).dataByte = .byte a := drive_dataByte a _
  rw [this]

/-- A transaction up to the way out of `Write` (step 25): the value is committed. -/
theorem committed_chip (a v : Byte) (u : State E) (h : answersOk 23 u.env.pins = true) :
   (runEvents (addressEvents ++ ((driveEvents a ++ settleEvents) ++ (inactiveEvents ++
    ((settleEvents ++ driveEvents v) ++ (writeEvents ++ (settleEvents ++ [.pinSet .bdir false])))))) u).1.chip =
     commit u.env.addrDecode { chipAfterEntry u with al := .byte a } (.byte v) := by
  have hc := latched_then_data_chip a (settleEvents ++ driveEvents v) u (by
    intro n b hm
    rcases List.mem_append.mp hm with hm | hm
    · simp [settleEvents] at hm
    · exact drive_is_data v n b hm) (answersOk_mono (show 12 + (0+8) ≤ 23 by omega) h)
  obtain ⟨s4, e4, d4, l4, t4, -, p4, a4⟩ := runEvents_part
    (addressEvents ++ ((driveEvents a ++ settleEvents) ++ (inactiveEvents ++ (settleEvents ++ driveEvents v)))) u 20 3 rfl h
  rw [← d4] at hc
  obtain ⟨s5, e5, d5, l5, t5, -, p5, a5⟩ := runEvents_part writeEvents s4 2 1 rfl p4
  obtain ⟨s6, e6, d6, l6, t6, -, p6, a6⟩ := runEvents_part settleEvents s5 0 1 rfl p5
  have b4 : s4.lines.bc1 = .low := by rw [l4]; rfl
  have c5 : s5.chip = s4.chip := by
    rw [d5, write_chip s4 (answersOk_mono (by decide) p4)]
    simp [b4]
  have c6 : s6.chip = s5.chip := by rw [d6]; rfl
  have e : addressEvents ++ ((driveEvents a ++ settleEvents) ++ (inactiveEvents ++
    ((settleEvents ++ driveEvents v) ++ (writeEvents ++ (settleEvents ++ [.pinSet .bdir false]))))) =
      (addressEvents ++ ((driveEvents a ++ settleEvents) ++ (inactiveEvents ++ (settleEvents ++ driveEvents v)))) ++
        (writeEvents ++ (settleEvents ++ [.pinSet .bdir false])) := by simp
  rw [e, runEvents_append_ok e4, runEvents_append_ok e5, runEvents_append_ok e6]
  rw [leave_write_first s6 p6 (by rw [l6, l5]; exact ⟨rfl, rfl⟩) (by rw [t6]; rfl), a6, a5, a4, c6, c5, hc, l6, l5, l4]
  have : (linesAfter settleEvents (linesAfter writeEvents (linesAfter
      (addressEvents ++ ((driveEvents a ++ settleEvents) ++ (inactiveEvents ++ (settleEvents ++ driveEvents v)))) u.lines))).dataByte =
        .byte v := by
    apply dataByte_of_bits <;> rfl
  rw [this]

/-- The chip after the first failing pin set of a transaction, at step `j`, from any start (the observer column of R128). -/
theorem txn_fail_chip (a v : Byte) (u : State E) (j : Nat) (n : Line) (b : Bool) (e : E)
   (hg : (txnEvents a v)[j]? = some (.pinSet n b))
   (hok : answersOk (pinCount ((txnEvents a v).take j)) u.env.pins = true)
   (herr : (u.env.pins.drop (pinCount ((txnEvents a v).take j))).head = .err e) :
    let t := (pinSet n b (runEvents ((txnEvents a v).take j) u).1).1
    (j ∈ [0, 1, 11, 22, 23, 25] → t.chip = Chip.lost) ∧
      (2 ≤ j ∧ j ≤ 9 → t.chip = chipAfterEntry u) ∧
      (12 ≤ j ∧ j ≤ 21 → t.chip = { chipAfterEntry u with al := .byte a }) ∧
      (j = 26 → t.chip = commit u.env.addrDecode { chipAfterEntry u with al := .byte a } (.byte v)) := by
  intro t
  have ho := runEvents_ok _ u hok
  have herr' : (runEvents ((txnEvents a v).take j) u).1.env.pins.head = .err e := by rw [ho.2.2.2]; exact herr
  refine ⟨fun h => ?_, fun h => ?_, fun h => ?_, fun h => ?_⟩
  · simp only [List.mem_cons, List.not_mem_nil, or_false] at h
    rcases h with rfl | rfl | rfl | rfl | rfl | rfl <;> cases hg
    · exact bdir_fail _ _ e herr'
    · exact bc1_fail_high _ _ e herr' (by rw [ho.2.1]; rfl)
    · exact bdir_fail _ _ e herr'
    · exact bdir_fail _ _ e herr'
    · exact bc1_fail_high _ _ e herr' (by rw [ho.2.1]; rfl)
    · exact bdir_fail _ _ e herr'
  · obtain ⟨h1, h2⟩ := h
    have hn : n.isControl = false := by
      interval_cases j <;> cases hg <;> rfl
    show (pinSet n b _).1.chip = _
    rw [(pinSet_data_chip _ _ _ hn).1]
    have : (txnEvents a v).take j = addressEvents ++ (driveEvents a).take (j-2) := by interval_cases j <;> rfl
    rw [this] at hok ⊢
    exact entry_then_data_chip _ (fun n b hm => drive_is_data a n b (List.mem_of_mem_take hm)) u
      (by rw [pinCount_append] at hok; exact hok)
  · obtain ⟨h1, h2⟩ := h
    by_cases h12 : j = 12
    · subst h12
      cases hg
      show (pinSet _ _ _).1.chip = _
      rw [bc1_fail_low _ _ e herr' (by rw [ho.2.1]; rfl)]
      exact latched_chip a u hok
    · by_cases h13 : j = 13
      · subst h13; cases hg
      · have hn : n.isControl = false := by
          have : 14 ≤ j := by omega
          clear h12 h13 h1
          interval_cases j <;> cases hg <;> rfl
        show (pinSet n b _).1.chip = _
        rw [(pinSet_data_chip _ _ _ hn).1]
        have : (txnEvents a v).take j =
            addressEvents ++ ((driveEvents a ++ settleEvents) ++ (inactiveEvents ++ (settleEvents ++ driveEvents v).take (j-13))) := by
          have : 14 ≤ j := by omega
          clear h12 h13 h1
          interval_cases j <;> rfl
        rw [this] at hok ⊢
        refine latched_then_data_chip a _ u ?_ (by simpa [pinCount_append, ← Nat.add_assoc] using hok)
        intro n b hm
        rcases List.mem_append.mp (List.mem_of_mem_take hm) with hm | hm
        · simp [settleEvents] at hm
        · exact drive_is_data v n b hm
  · subst h; cases hg
    show (pinSet _ _ _).1.chip = _
    rw [bc1_fail_low _ _ e herr' (by rw [ho.2.1]; rfl)]
    exact committed_chip a v u hok

end Sys2Proof.Laws
end

