-- ==== Sys2Proof/Laws/PerInstr.lean ====
section
/-! SUPPORT. Facts about every operation as syntax, one lemma a constructor. `TableRow`: the word the encoder writes for a
well-formed operation is a word of that operation's row of 30_encoding.md R92, by the row's own match and mask, or
has the fixed bits of its row in spec/opcode_table.json. -/

namespace Sys2Proof.Laws

open Sys2Proof

/-- What a row of spec/opcode_table.json fixes. -/
inductive Row where
  /-- `CMD32` with a match and a mask (R92). -/
  | command (value mask : BitVec 32)
  /-- `CTRL2` with its two fixed bits (R80). -/
  | mode (value : BitVec 2)
  /-- `DATA8`: no fixed bit (R82). -/
  | data
  /-- `TXN16`: no fixed bit (R83). -/
  | transaction
  /-- `REQ1`: asserted (R200). -/
  | request
deriving DecidableEq, Repr

/-- A word belongs to a row: `w & mask = match` (R92), in the row's format. -/
def inRow : Row → Encoded → Bool
  | .command value mask, .cmd32 w => w &&& mask == value
  | .mode value, .ctrl2 w => w == value
  | .data, .data8 _ => true
  | .transaction, .txn16 _ => true
  | .request, .req1 w => w == 1
  | _, _ => false

namespace TableRow

/-- The row of an operation, with the table's own match and mask columns. -/
def rowOf : Instr → Row
  | .clr => .command 0x00000000 0xFFFFFFFF
  | .wreg _ _ => .command 0x01000000 0xFF00FF00
  | .tone _ _ => .command 0x02000000 0xFFFC0000
  | .noise _ => .command 0x03000000 0xFFFFFF00
  | .mix _ => .command 0x04000000 0xFFFFFF00
  | .lvlf _ _ => .command 0x05000000 0xFFFCFF00
  | .lvle _ => .command 0x05000100 0xFFFCFFFF
  | .envf _ => .command 0x06000000 0xFFFF0000
  | .envs _ => .command 0x07000000 0xFFFFFFF0
  | .iow _ _ => .command 0x08000000 0xFFFEFF00
  | .uina => .mode 0b00
  | .uadr => .mode 0b11
  | .uwrt => .mode 0b10
  | .udrv _ => .data
  | .utxn _ _ => .transaction
  | .reset => .request

/-- A well-formed operation is spelled by a word of its own row. -/
def Statement (i : Instr) : Prop := wellFormed i = true → inRow (rowOf i) (encode i) = true

/-- Masking a command word masks its fields. -/
theorem and_commandWord (op sel mop msel : Byte) (imm mimm : Period) :
    commandWord op sel imm &&& commandWord mop msel mimm = commandWord (op &&& mop) (sel &&& msel) (imm &&& mimm) := by
  refine BitVec.eq_of_getLsbD_eq fun n hn => ?_
  rw [BitVec.getLsbD_and, getLsbD_commandWord _ _ _ _ hn, getLsbD_commandWord _ _ _ _ hn, getLsbD_commandWord _ _ _ _ hn]
  split
  · exact (BitVec.getLsbD_and ..).symm
  · split <;> exact (BitVec.getLsbD_and ..).symm

/-- A command word is in a row when each field, masked, is the row's. -/
theorem in_command_row (op sel mop msel vop vsel : Byte) (imm mimm vimm : Period) (ho : op &&& mop = vop) (hs : sel &&& msel = vsel)
    (hi : imm &&& mimm = vimm) :
    inRow (.command (commandWord vop vsel vimm) (commandWord mop msel mimm)) (.cmd32 (commandWord op sel imm)) = true := by
  simp [inRow, and_commandWord, ho, hs, hi]

theorem byteImm_high (b : Byte) : byteImm b &&& 0xFF00 = 0 := by
  revert b; decide +kernel

theorem byteImm_shape (b : Byte) (h : b.extractLsb' 4 4 = 0) : byteImm b &&& 0xFFF0 = 0 := by
  revert b; decide +kernel

theorem clr : Statement .clr := fun _ => rfl

theorem wreg (address value : Byte) : Statement (.wreg address value) := fun _ =>
  in_command_row 0x01 address 0xFF 0x00 0x01 0x00 _ 0xFF00 0 rfl BitVec.and_zero (byteImm_high value)

theorem tone (ch : Channel) (frequency : Period) : Statement (.tone ch frequency) := fun _ =>
  in_command_row 0x02 (selOfChannel ch) 0xFF 0xFC 0x02 0x00 frequency 0x0000 0 rfl (by cases ch <;> rfl) BitVec.and_zero

theorem noise (frequency : Byte) : Statement (.noise frequency) := fun _ =>
  in_command_row 0x03 0 0xFF 0xFF 0x03 0x00 _ 0xFF00 0 rfl rfl (byteImm_high frequency)

theorem mix (settings : Byte) : Statement (.mix settings) := fun _ =>
  in_command_row 0x04 0 0xFF 0xFF 0x04 0x00 _ 0xFF00 0 rfl rfl (byteImm_high settings)

theorem lvlf (ch : Channel) (n : Byte) : Statement (.lvlf ch n) := fun _ =>
  in_command_row 0x05 (selOfChannel ch) 0xFF 0xFC 0x05 0x00 _ 0xFF00 0 rfl (by cases ch <;> rfl) (byteImm_high n)

theorem lvle (ch : Channel) : Statement (.lvle ch) := fun _ =>
  in_command_row 0x05 (selOfChannel ch) 0xFF 0xFC 0x05 0x00 0x0100 0xFFFF 0x0100 rfl (by cases ch <;> rfl) rfl

theorem envf (frequency : Period) : Statement (.envf frequency) := fun _ =>
  in_command_row 0x06 0 0xFF 0xFF 0x06 0x00 frequency 0x0000 0 rfl rfl BitVec.and_zero

theorem envs (shape : Byte) : Statement (.envs shape) := fun h =>
  in_command_row 0x07 0 0xFF 0xFF 0x07 0x00 _ 0xFFF0 0 rfl rfl (byteImm_shape shape (by simpa [wellFormed] using h))

theorem iow (port : IoPort) (data : Byte) : Statement (.iow port data) := fun _ =>
  in_command_row 0x08 (selOfPort port) 0xFF 0xFE 0x08 0x00 _ 0xFF00 0 rfl (by cases port <;> rfl) (byteImm_high data)

theorem uina : Statement .uina := fun _ => rfl

theorem uadr : Statement .uadr := fun _ => rfl

theorem uwrt : Statement .uwrt := fun _ => rfl

theorem udrv (value : Byte) : Statement (.udrv value) := fun _ => rfl

theorem utxn (address value : Byte) : Statement (.utxn address value) := fun _ => rfl

theorem reset : Statement .reset := fun _ => rfl

end TableRow

end Sys2Proof.Laws
end

