-- ==== Sys2Proof/Laws/Plan.lean ====
section
/-! SUPPORT. What a plan's transactions make of the chip when every pin set is answered Ok: a fold over its pairs, and what its
registers then read. -/

namespace Sys2Proof.Laws

open Sys2Proof
open Sys2Proof.Machine
open Sys2Proof.Safety

variable {E : Type}

/-! ### The free booleans a transaction takes -/

/-- The transient choices a mode entry takes. -/
theorem entry_transients (x y : Bool) (s : State E) (h : answersOk 2 s.env.pins = true) :
    (runEvents [.pinSet .bdir x, .pinSet .bc1 y] s).1.env.transients =
      let l1 := s.lines.set .bdir (Level.ofBool x)
      let p := if takesTransient .bdir s.lines l1 s then s.env.transients.tail else s.env.transients
      if isExit l1.mode (l1.set .bc1 (Level.ofBool y)).mode then p.tail else p := by
  have h' := h
  simp only [answersOk, Bool.and_eq_true, isOk_iff] at h'
  rw [runEvents_two_ok _ _ _ _ _ h, pinSet_control_transients _ _ _ rfl]
  simp only [pinSet_lines, pinSet_pins, h'.1, h'.2.1, levelAfter, pinSet_trace, setEntry, lastWasWait, Bool.not_false, Bool.and_true,
    pinSet_transients, observe]

/-- From `Inactive`, entering `AddressLatch` takes one choice: the exit of step 1 (R212). -/
theorem address_transients (s : State E) (h : answersOk 2 s.env.pins = true) (hm : s.mode = .inactive) :
    (runEvents addressEvents s).1.env.transients = s.env.transients.tail := by
  rw [addressEvents, entry_transients _ _ _ h]
  simp only [State.mode, Lines.mode] at hm
  rcases h1 : s.lines.bdir <;> rcases h2 : s.lines.bc1 <;>
    simp_all [takesTransient, Lines.mode, busMode, Lines.set, isExit, Level.ofBool]

/-- From `Inactive`, entering `Write` takes none. -/
theorem write_transients (s : State E) (h : answersOk 2 s.env.pins = true) (hm : s.lines.mode = .inactive) :
    (runEvents writeEvents s).1.env.transients = s.env.transients := by
  rw [writeEvents, entry_transients _ _ _ h]
  simp only [Lines.mode] at hm
  rcases h1 : s.lines.bdir <;> rcases h2 : s.lines.bc1 <;>
    simp_all [takesTransient, Lines.mode, busMode, Lines.set, isExit, Level.ofBool]

/-- A settled return to `Inactive` takes none. -/
theorem inactive_transients (s : State E) (h : answersOk 2 s.env.pins = true) (hw : lastWasWait s.trace = true) :
    (runEvents inactiveEvents s).1.env.transients = s.env.transients := by
  rw [inactiveEvents, entry_transients _ _ _ h]
  rcases h1 : s.lines.bdir <;> rcases h2 : s.lines.bc1 <;>
    simp [takesTransient, Lines.mode, busMode, Lines.set, isExit, Level.ofBool, hw, h2]

/-- From `Inactive`, a transaction takes one choice. -/
theorem txn_transients (a v : Byte) (s : State E) (h : answersOk 24 s.env.pins = true) (hm : s.mode = .inactive) :
    (runEvents (txnEvents a v) s).1.env.transients = s.env.transients.tail := by
  obtain ⟨s1, e1, d1, l1, t1, -, p1, a1⟩ := runEvents_part addressEvents s 2 22 rfl h
  obtain ⟨s2, e2, d2, l2, t2, -, p2, a2⟩ := runEvents_part (driveEvents a ++ settleEvents) s1 8 14 rfl p1
  obtain ⟨s3, e3, d3, l3, t3, -, p3, a3⟩ := runEvents_part inactiveEvents s2 2 12 rfl p2
  obtain ⟨s4, e4, d4, l4, t4, -, p4, a4⟩ := runEvents_part (settleEvents ++ driveEvents v) s3 8 4 rfl p3
  obtain ⟨s5, e5, d5, l5, t5, -, p5, a5⟩ := runEvents_part writeEvents s4 2 2 rfl p4
  obtain ⟨s6, e6, d6, l6, t6, -, p6, a6⟩ := runEvents_part settleEvents s5 0 2 rfl p5
  obtain ⟨s7, e7, d7, l7, t7, -, p7, a7⟩ := runEvents_part inactiveEvents s6 2 0 rfl p6
  have c1 : s1.env.transients = s.env.transients.tail := by
    rw [d1]; exact address_transients s (answersOk_mono (by decide) h) hm
  have c2 : s2.env.transients = s1.env.transients := by
    rw [d2]; exact (drive_settle a s1 (answersOk_mono (by decide) p1)).2.2.1
  have c3 : s3.env.transients = s2.env.transients := by
    rw [d3]; exact inactive_transients s2 (answersOk_mono (by decide) p2) (by rw [t2]; rfl)
  have c4 : s4.env.transients = s3.env.transients := by
    rw [d4]
    refine (runEvents_data_chip _ s3 fun n b hm => ?_).2
    rcases List.mem_append.mp hm with hm | hm
    · simp [settleEvents] at hm
    · exact drive_is_data v n b hm
  have c5 : s5.env.transients = s4.env.transients := by
    rw [d5]
    refine write_transients s4 (answersOk_mono (by decide) p4) ?_
    rw [l4, linesAfter_append, l3]; rfl
  have c6 : s6.env.transients = s5.env.transients := by rw [d6]; rfl
  have c7 : s7.env.transients = s6.env.transients := by
    rw [d7]; exact inactive_transients s6 (answersOk_mono (by decide) p6) (by rw [t6]; rfl)
  rw [txnEvents_parts, runEvents_append_ok e1, runEvents_append_ok e2, runEvents_append_ok e3, runEvents_append_ok e4,
    runEvents_append_ok e5, runEvents_append_ok e6, runEvents_append_ok e7]
  show s7.env.transients = _
  rw [c7, c6, c5, c4, c3, c2, c1]

/-! ### Plans -/

/-- The chip after one pair is latched and committed. -/
def chipWrite (dec : AddrDecode) (c : Chip) (q : Pair) : Chip := commit dec { c with al := .byte q.1 } (.byte q.2)

theorem commit_al (dec : AddrDecode) (c : Chip) (d : ByteX) : (commit dec c d).al = c.al := by
  unfold commit
  repeat' split
  all_goals rfl

theorem chipWrite_al (dec : AddrDecode) (c : Chip) (q : Pair) : (chipWrite dec c q).al = .byte q.1 := commit_al _ _ _

theorem chipWrite_regs (dec : AddrDecode) (c : Chip) (q : Pair) (h : q.1.toNat < 16) :
    (chipWrite dec c q).regs = c.regs.write q.1.toNat (.byte q.2) := by
  simp [chipWrite, commit, Config.nReg, h]

theorem commit_commit (dec : AddrDecode) (c : Chip) (v : Byte) : commit dec (commit dec c (.byte v)) (.byte v) = commit dec c (.byte v) := by
  obtain ⟨al, regs⟩ := c
  cases al with
  | x => rfl
  | byte a =>
    by_cases h : a.toNat < Config.nReg
    · simp [commit, h, Memory.write, insert_insert_same]
    · cases dec <;> simp [commit, h, Memory.write, insert_insert_same]

@[simp] theorem planEvents_nil : planEvents [] = [] := rfl

theorem planEvents_cons (q : Pair) (p : List Pair) : planEvents (q :: p) = txnEvents q.1 q.2 ++ planEvents p := by
  simp [planEvents]

theorem planEvents_append (p r : List Pair) : planEvents (p ++ r) = planEvents p ++ planEvents r := by
  simp [planEvents]

theorem pinCount_plan (p : List Pair) : pinCount (planEvents p) = 24 * p.length := by
  induction p with
  | nil => rfl
  | cons q p ih => rw [planEvents_cons, pinCount_append, ih, pinCount_txn, List.length_cons]; omega

theorem length_plan (p : List Pair) : (planEvents p).length = 28 * p.length := by
  induction p with
  | nil => rfl
  | cons q p ih => rw [planEvents_cons, List.length_append, ih, length_txn, List.length_cons]; omega

theorem linesAfter_plan (p : List Pair) (q : Pair) (l : Lines) : linesAfter (planEvents (p ++ [q])) l = quietLines q.2 := by
  rw [planEvents_append, linesAfter_append]; rfl

/-- After a transaction answered Ok, from any start: in sync, known levels (R72). -/
theorem txn_inSync (a v : Byte) (s : State E) (h : answersOk 24 s.env.pins = true) :
    InSync (runEvents (txnEvents a v) s).1 ∧ ControlKnown (runEvents (txnEvents a v) s).1.lines ∧
      (runEvents (txnEvents a v) s).1.mode = .inactive := by
  have ho := runEvents_ok (txnEvents a v) s h
  have hl : (runEvents (txnEvents a v) s).1.lines = quietLines v := ho.2.1
  refine ⟨?_, ?_, ?_⟩
  · rw [InSync, hl, txn_chip a v s h, (runEvents_only_bus _ s).addrDecode, quietLines_dataByte, commit_commit]
  · rw [ControlKnown, hl]; exact ⟨Level.noConfusion, Level.noConfusion⟩
  · rw [State.mode, hl]; rfl

/-- The chip after a plan answered Ok, from any start: one latch and commit a pair, after the first step's exit. -/
theorem plan_chip (p : List Pair) (s : State E) (hp : p ≠ []) (h : answersOk (24 * p.length) s.env.pins = true) :
    (runEvents (planEvents p) s).1.chip = p.foldl (chipWrite s.env.addrDecode) (chipAfterEntry s) := by
  induction p generalizing s with
  | nil => exact absurd rfl hp
  | cons q p ih =>
    rw [List.length_cons, Nat.mul_succ, Nat.add_comm] at h
    obtain ⟨t, e, d, l, -, -, hpins, ha⟩ := runEvents_part (txnEvents q.1 q.2) s 24 (24 * p.length) rfl h
    have h24 : answersOk 24 s.env.pins = true := answersOk_mono (by omega) h
    have hc : t.chip = chipWrite s.env.addrDecode (chipAfterEntry s) q := by rw [d]; exact txn_chip _ _ s h24
    rw [planEvents_cons, runEvents_append_ok e, List.foldl_cons, ← hc]
    cases p with
    | nil => rfl
    | cons q' p' =>
      have hs := txn_inSync q.1 q.2 s h24
      rw [← d] at hs
      rw [ih t (by simp) hpins, chipAfterEntry_inSync t hs.2.1 hs.1, ha]

theorem plan_transients (p : List Pair) (s : State E) (hm : s.mode = .inactive)
    (h : answersOk (24 * p.length) s.env.pins = true) :
    (runEvents (planEvents p) s).1.env.transients = s.env.transients.drop p.length := by
  induction p generalizing s with
  | nil => rfl
  | cons q p ih =>
    rw [List.length_cons, Nat.mul_succ, Nat.add_comm] at h
    obtain ⟨t, e, d, l, -, -, hpins, ha⟩ := runEvents_part (txnEvents q.1 q.2) s 24 (24 * p.length) rfl h
    have h24 : answersOk 24 s.env.pins = true := answersOk_mono (by omega) h
    have ht : t.env.transients = s.env.transients.tail := by rw [d]; exact txn_transients _ _ s h24 hm
    have hs := txn_inSync q.1 q.2 s h24
    rw [← d] at hs
    rw [planEvents_cons, runEvents_append_ok e, ih t hs.2.2 hpins, ht, List.length_cons, drop_succ]

/-! ### What the registers read after a plan -/

theorem fold_al (dec : AddrDecode) (p : List Pair) (q : Pair) (c : Chip) :
    ((p ++ [q]).foldl (chipWrite dec) c).al = .byte q.1 := by
  rw [List.foldl_append]; exact chipWrite_al _ _ _

/-- Registers of the chip after a plan below 0x10: the plan's last byte for each, or what stood before. -/
theorem fold_read (dec : AddrDecode) (p : List Pair) (c : Chip) (r : Nat) (h : ∀ q ∈ p, q.1.toNat < 16) :
    (p.foldl (chipWrite dec) c).regs.read r =
      match planned p r with
      | some v => .byte v
      | none => c.regs.read r := by
  induction p using List.reverseRecOn with
  | nil => rfl
  | append_singleton p q ih =>
    have hq : q.1.toNat < 16 := h q (by simp)
    have ih' := ih fun q' hq' => h q' (by simp [hq'])
    rw [List.foldl_append, List.foldl_cons, List.foldl_nil, chipWrite_regs dec _ q hq]
    by_cases hr : r = q.1.toNat
    · subst hr; simp [planned]
    · have : (q.1.toNat == r) = false := by simpa using Ne.symm hr
      rw [read_write_other _ _ hr, ih']
      simp [planned, this]

/-- A command answered Ok: the controller's side, from any start (R140). -/
theorem runAccepted_ok (i : Instr) (p : List Pair) (q : Pair) (s : State E) (hp : plan i = p ++ [q])
    (h : answersOk (24 * (plan i).length) s.env.pins = true) :
    EndedOk (plan i) q s (runAccepted i s) ∧
      (runAccepted i s).chip = (plan i).foldl (chipWrite s.env.addrDecode) (chipAfterEntry s) := by
  have hpc : pinCount (planEvents (plan i)) = 24 * (plan i).length := pinCount_plan _
  have ho := runEvents_ok (planEvents (plan i)) (accept i s) (by rw [hpc]; exact h)
  have hb := runEvents_only_bus (planEvents (plan i)) (accept i s)
  have hc := plan_chip (plan i) (accept i s) (by rw [hp]; simp) h
  have hc' : (runAccepted i s).chip = (plan i).foldl (chipWrite s.env.addrDecode) (chipAfterEntry s) := hc
  refine ⟨⟨rfl, ?_, ?_, ?_, ho.2.2.1, ?_, ?_, runEvents_engineReturn _ _, hb.addrDecode, hb.agenda⟩, hc'⟩
  · show resultOf (runEvents (planEvents (plan i)) (accept i s)).2 = .ok
    rw [ho.1]; rfl
  · show (runEvents (planEvents (plan i)) (accept i s)).1.lines = _
    rw [ho.2.1, hp, linesAfter_plan]
  · rw [hc', hp, fold_al]
  · show (runEvents (planEvents (plan i)) (accept i s)).1.env.pins = _
    rw [ho.2.2.2, hpc]; rfl
  · intro hm
    exact plan_transients (plan i) (accept i s) hm h

/-- A command with a plan below 0x10, in sync: the whole effect (R72, R140). -/
theorem runCommand_wrote (i : Instr) (p : List Pair) (q : Pair) (s : State E) (hp : plan i = p ++ [q])
    (h16 : ∀ q' ∈ plan i, q'.1.toNat < 16) (h : WillRunInSync (plan i).length s) :
    runCommand i s = .next (runAccepted i s) ∧ WrotePlan (plan i) q s (runAccepted i s) := by
  obtain ⟨⟨hr, ha⟩, hk, hs⟩ := h
  have he := runAccepted_ok i p q s hp ha
  refine ⟨by simp [runCommand, State.ready, hr], he.1, ?_, ?_⟩
  · intro r v hv
    rw [he.2, fold_read _ _ _ _ h16, hv]
  · intro r hv
    rw [he.2, fold_read _ _ _ _ h16, hv, chipAfterEntry_inSync s hk hs]

end Sys2Proof.Laws
end

