-- ==== Sys2Proof/Laws/Relation.lean ====
section
/-! SUPPORT. The machine the host runs is the model at its error type, and a step is one with its parameters as arguments
(00_scope.md R14, 10_state.md R31): no step reads what the last micro-operation returned. -/

namespace Sys2Proof.Laws

open Sys2Proof
open Sys2Proof.Machine

variable {E : Type}

/-- `exec` is the meaning over any error type, at `Config.ErrVal`. -/
theorem exec_eq (i : Instr) (s : State) : exec i s = execOf i s := by cases i <;> rfl

/-- `step` is the step over any error type, at `Config.ErrVal`. -/
theorem step_eq (s : State) : step s = stepOf s := by
  have h : exec = execOf (E := Config.ErrVal) := funext fun i => funext (exec_eq i)
  rw [step, stepOf, h]

/-! ### `engineReturn` is not read -/

/-- A state with another return value. -/
def returning (r : Result E) (s : State E) : State E := { s with engineReturn := r }

theorem issue_returning (r : Result E) (ev : Event) (s : State E) :
    issue ev (returning r s) = (returning r (issue ev s).1, (issue ev s).2) := by cases ev <;> rfl

theorem runEvents_returning (r : Result E) (evs : List Event) (s : State E) :
    runEvents evs (returning r s) = (returning r (runEvents evs s).1, (runEvents evs s).2) := by
  induction evs generalizing s with
  | nil => rfl
  | cons ev evs ih =>
    rw [runEvents_cons, runEvents_cons, issue_returning]
    rcases issue ev s with ⟨s1, _ | e⟩
    · exact ih s1
    · rfl

/-- An operation makes the same of R14's state and of the parameters, whatever the return value was. -/
theorem execOf_returning (r : Result E) (i : Instr) (s : State E) :
    withoutReturn (execOf i (returning r s)) = withoutReturn (execOf i s) := by
  have hcmd : ∀ i, withoutReturn (runCommand i (returning r s)) = withoutReturn (runCommand i s) := by
    intro i
    have h := runEvents_returning r (planEvents (plan i)) (accept i s)
    have ha : accept i (returning r s) = returning r (accept i s) := rfl
    simp only [runCommand, runAccepted, ha, h]
    show withoutReturn (if s.ready = true then _ else _) = _
    split <;> rfl
  have heng : ∀ evs, withoutReturn (runEngine evs (returning r s)) = withoutReturn (runEngine evs s) := by
    intro evs
    simp only [runEngine, runEvents_returning]
    rfl
  cases i with
  | uina => exact heng _
  | uadr => exact heng _
  | uwrt => exact heng _
  | udrv _ => exact heng _
  | utxn _ _ => exact heng _
  | reset =>
    have h := runEvents_returning r inactiveEvents (beginReset s)
    have ha : beginReset (returning r s) = returning r (beginReset s) := rfl
    show withoutReturn (requestReset _) = withoutReturn (requestReset _)
    simp only [requestReset, runReset, ha, h]
    show withoutReturn (if s.takesReset = true then _ else _) = _
    split <;> rfl
  | _ => exact hcmd _

/-- One step of the sequencer, likewise. -/
theorem sequencerStep_returning (r : Result E) (s : State E) :
    withoutReturn (sequencerStep (returning r s)) = withoutReturn (sequencerStep s) := by
  have hbusy : ∀ i k j, withoutReturn (busyStep i k j (returning r s)) = withoutReturn (busyStep i k j s) := by
    intro i k j
    simp only [busyStep, issue_returning]
    split
    · rfl
    · split
      · rfl
      · rename_i ev _
        rcases issue ev s with ⟨s1, _ | e⟩
        · show withoutReturn (.next (advance _ k j (returning r s1))) = withoutReturn (.next (advance _ k j s1))
          unfold advance
          repeat' split
          all_goals rfl
        · rfl
  have hres : ∀ q, withoutReturn (resettingStep q (returning r s)) = withoutReturn (resettingStep q s) := by
    intro q
    simp only [resettingStep, issue_returning]
    split
    · rfl
    · rename_i ev _
      rcases issue ev s with ⟨s1, _ | e⟩
      · show withoutReturn (.next (advanceReset q (returning r s1))) = withoutReturn (.next (advanceReset q s1))
        unfold advanceReset
        split <;> rfl
      · rfl
  obtain ⟨⟨lines, run, cmd, pos, result, chip, trace⟩, ret, env⟩ := s
  cases run
  case busy => cases cmd <;> cases pos <;> first | rfl | exact hbusy ..
  case resetting => cases pos <;> first | rfl | exact hres ..
  all_goals rfl

/-- The host's move, likewise. -/
theorem takeMove_returning (r : Result E) (m : HostMove) (s : State E) :
    (∃ i, takeMove m s = .run i s ∧ takeMove m (returning r s) = .run i (returning r s)) ∨
    (∃ i, takeMove m s = .accepted i s ∧ takeMove m (returning r s) = .accepted i (returning r s)) ∨
    (takeMove m s = .resetRequested s ∧ takeMove m (returning r s) = .resetRequested (returning r s)) ∨
    (takeMove m s = .nothing s ∧ takeMove m (returning r s) = .nothing (returning r s)) := by
  have hseen : ∀ e, seen e (returning r s) = seen e s := fun e => by cases e <;> rfl
  have htakes : (returning r s).takesReset = s.takesReset := rfl
  cases m with
  | call e => by_cases hs : seen e s = true <;> cases hd : decode e <;> simp [takeMove, hseen, hs, hd]
  | present w => by_cases hs : seen (.cmd32 w) s = true <;> cases hd : decode (.cmd32 w) <;> simp [takeMove, hseen, hs, hd]
  | requestReset => by_cases hs : s.takesReset = true <;> simp [takeMove, htakes, hs]
  | release => exact .inr (.inr (.inr ⟨rfl, rfl⟩))

theorem stepOf_returning (r : Result E) (s : State E) : withoutReturn (stepOf (returning r s)) = withoutReturn (stepOf s) := by
  have hb : (returning r s).busy = s.busy := rfl
  have ha : (returning r s).env = s.env := rfl
  have hd : dropMove (returning r s) = returning r (dropMove s) := rfl
  simp only [stepOf, stepBy, fetch, hb, ha, hd]
  by_cases h : s.busy = true
  · simp only [h, if_true]
    exact sequencerStep_returning r s
  · simp only [h]
    cases s.env.agenda with
    | nil => rfl
    | cons m rest =>
      rcases takeMove_returning r m (dropMove s) with ⟨i, h1, h2⟩ | ⟨i, h1, h2⟩ | ⟨h1, h2⟩ | ⟨h1, h2⟩
      · simp only [h1, h2]; exact execOf_returning r i _
      all_goals simp only [h1, h2]; rfl

/-- A step with its parameters as arguments is the step (R14). -/
theorem stepOf_eq_stepUnder (s : State E) : withoutReturn (stepOf s) = stepUnder s.env s.toBlock :=
  (stepOf_returning .none s).symm

end Sys2Proof.Laws
end

