-- ==== Sys2Proof/Laws/Step.lean ====
section
/-! SUPPORT. What an operation and a step can do, said once: the operations by their kind, the ends of commands and resets, the
parts of a failing command, and every way a step can go. -/

namespace Sys2Proof.Laws

open Sys2Proof
open Sys2Proof.Config
open Sys2Proof.Machine
open Sys2Proof.Safety

variable {E : Type}

/-! ### Operations -/

/-- A command when IDLE runs its plan. -/
theorem exec_command (i : Instr) (s : State) (hc : isCommand i = true) (h : s.run = .idle) : exec i s = .next (runAccepted i s) := by
  cases i <;> first | (show runCommand _ s = _; simp [runCommand, State.ready, h]) | (exact absurd hc (by simp [isCommand, plan]))

/-- A reset where it is honoured runs its sequence (R200). -/
theorem reset_exec (s : State) (h : s.run = .off ∨ s.run = .dead ∨ s.run = .idle) : exec .reset s = .next (runReset s) := by
  show requestReset s = _
  rcases h with h | h | h <;> simp [requestReset, State.takesReset, State.busy, h]

/-- An operation keeps whatever its micro-events and its end keep: the case split over the table, once. -/
theorem exec_keeps {P : State → Prop} (hset : ∀ n b s, P s → P (pinSet n b s).1) (hwait : ∀ t s, P s → P (wait t s))
    (hec : ∀ i s, P s → P (runAccepted i s)) (her : ∀ s, P s → P (runReset s)) (hee : ∀ f s, P s → P (endEngine f s))
    (i : Instr) (s t : State) (h : P s)
   (he : exec i s = .next t) : P t := by
  have hcmd : ∀ i, runCommand i s = .next t → P t := by
    intro i he
    simp only [runCommand] at he
    split at he <;> cases he
    · exact hec _ _ h
    · exact h
  have heng : ∀ evs, runEngine evs s = .next t → P t := by
    intro evs he
    cases he
    exact hee _ _ (runEvents_keeps hset hwait evs s h)
  cases i
  case reset =>
    have he : requestReset s = _ := he
    simp only [requestReset] at he
    split at he <;> cases he
    · exact her _ h
    · exact h
  case uina => exact heng _ he
  case uadr => exact heng _ he
  case uwrt => exact heng _ he
  case udrv => exact heng _ he
  case utxn => exact heng _ he
  all_goals exact hcmd _ he

/-- A word on the command port spells a command (R96). -/
theorem cmd32_isCommand (w : BitVec 32) (i : Instr) (h : decode (.cmd32 w) = .ok i) : isCommand i = true := by
  simp only [decode, decodeCommand, decodeByteForm, decodeLevel] at h
  (repeat' split at h) <;> first | (cases h; rfl) | cases h

/-! ### Commands that fail -/

/-- A command whose pin set after `pre` fails (R172). -/
theorem runAccepted_fail (i : Instr) (s : State E) (pre post : List Event) (n : Line) (b : Bool) (e : E)
    (hp : planEvents (plan i) = pre ++ .pinSet n b :: post)
    (hok : answersOk (pinCount pre) s.env.pins = true) (herr : (s.env.pins.drop (pinCount pre)).head = .err e) :
    runAccepted i s = endCommand (some e) (pinSet n b (runEvents pre (accept i s)).1).1 := by
  have := runEvents_fail pre n b post (accept i s) e hok herr
  simp only [runAccepted, hp, this]

/-- A plan answered Ok, from known levels and in sync: the same again, and the chip a fold over its pairs (R72). -/
theorem plan_inSync (p : List Pair) (s : State E) (hk : ControlKnown s.lines) (hs : InSync s)
    (h : answersOk (24 * p.length) s.env.pins = true) :
    InSync (runEvents (planEvents p) s).1 ∧ ControlKnown (runEvents (planEvents p) s).1.lines ∧
    (runEvents (planEvents p) s).1.chip = p.foldl (chipWrite s.env.addrDecode) s.chip := by
  induction p generalizing s with
  | nil => exact ⟨hs, hk, rfl⟩
  | cons q p ih =>
    rw [List.length_cons, Nat.mul_succ, Nat.add_comm] at h
    obtain ⟨t, e, d, l, -, -, hpins, ha⟩ := runEvents_part (txnEvents q.1 q.2) s 24 (24 * p.length) rfl h
    have h24 : answersOk 24 s.env.pins = true := answersOk_mono (by omega) h
    have hsy := txn_inSync q.1 q.2 s h24
    rw [← d] at hsy
    rw [planEvents_cons, runEvents_append_ok e]
    have := ih t hsy.2.1 hsy.1 hpins
    refine ⟨this.1, this.2.1, ?_⟩
    rw [this.2.2, ha, d, txn_chip _ _ s h24, chipAfterEntry_inSync s hk hs]; rfl

/-- A transaction up to one of its data lines: no register is written, and the latch is as it was or has the address (R128). -/
theorem data_prefix_chip (a v : Byte) (pre post : List Event) (n : Line) (b : Bool) (s : State E) (hn : n.isControl = false)
   (hp : txnEvents a v = pre ++ .pinSet n b :: post) (hk : ControlKnown s.lines) (hs : InSync s)
   (hok : answersOk (pinCount pre) s.env.pins = true) :
   (runEvents pre s).1.chip = s.chip ∨ (runEvents pre s).1.chip = { s.chip with al := .byte a } := by
  have hcase : (∃ d, pre = addressEvents ++ d ∧ (∀ n b, Event.pinSet n b ∈ d → n.isControl = false)) ∨
      (∃ d, pre = addressEvents ++ ((driveEvents a ++ settleEvents) ++ (inactiveEvents ++ d)) ∧
        (∀ n b, Event.pinSet n b ∈ d → n.isControl = false)) := by
    have hlen : pre.length < 28 := by
      have := congrArg List.length hp
      simp at this; omega
    have hpre : pre = (txnEvents a v).take pre.length := by rw [hp]; simp
    have hget : (txnEvents a v)[pre.length]? = some (.pinSet n b) := by rw [hp]; simp
    generalize pre.length = j at *
    have : (2 ≤ j ∧ j ≤ 9) ∨ (14 ≤ j ∧ j ≤ 21) := by
      clear hp hok hpre
      interval_cases j <;> simp [txnEvents, addressEvents, driveEvents, settleEvents, inactiveEvents, writeEvents] at hget ⊢ <;>
       (obtain ⟨rfl, rfl⟩ := hget; simp [Line.isControl] at hn)
    subst hpre
    rcases this with h | h
    · left
      refine ⟨(driveEvents a).take (j-2), ?_, fun n b hm => drive_is_data a n b (List.mem_of_mem_take hm)⟩
      obtain ⟨h1, h2⟩ := h
      clear hget hp hok
      interval_cases j <;> rfl
    · right
      refine ⟨(settleEvents ++ driveEvents v).take (j-13), ?_, fun n b hm => ?_⟩
      · obtain ⟨h1, h2⟩ := h
        clear hget hp hok
        interval_cases j <;> rfl
      · rcases List.mem_append.mp (List.mem_of_mem_take hm) with hm | hm
        · simp [settleEvents] at hm
        · exact drive_is_data v n b hm
  rcases hcase with ⟨d, rfl, hd⟩ | ⟨d, rfl, hd⟩
  · left
    obtain ⟨s1, e1, d1, l1, t1, -, p1, a1⟩ := runEvents_part addressEvents s 2 (pinCount d) rfl
      (by rw [pinCount_append] at hok; exact hok)
    rw [runEvents_append_ok e1, (runEvents_data_chip d s1 hd).1, d1]
    rw [address_chip s (answersOk_mono (by rw [pinCount_append]; simp) hok)]
    exact chipAfterEntry_inSync s hk hs
  · right
    have hc : pinCount (addressEvents ++ ((driveEvents a ++ settleEvents) ++ (inactiveEvents ++ d))) = 2 + (8 + (2 + pinCount d)) := by
      simp [pinCount_append]
    rw [hc] at hok
    obtain ⟨s1, e1, d1, l1, t1, -, p1, a1⟩ := runEvents_part addressEvents s 2 _ rfl hok
    obtain ⟨s2, e2, d2, l2, t2, -, p2, a2⟩ := runEvents_part (driveEvents a ++ settleEvents) s1 8 _ rfl p1
    obtain ⟨s3, e3, d3, l3, t3, -, p3, a3⟩ := runEvents_part inactiveEvents s2 2 _ rfl p2
    rw [runEvents_append_ok e1, runEvents_append_ok e2, runEvents_append_ok e3, (runEvents_data_chip d s3 hd).1, d3]
    have c1 : s1.chip = s.chip := by
      rw [d1, address_chip s (answersOk_mono (by omega) hok)]; exact chipAfterEntry_inSync s hk hs
    have c2 : s2.chip = s1.chip := by rw [d2]; exact (drive_settle a s1 (answersOk_mono (by omega) p1)).2.1
    rw [leave_address a s2 (answersOk_mono (by omega) p2) (by rw [l2, l1]; rfl)
      (by rw [l2, linesAfter_append]; exact drive_dataByte a _) (by rw [t2]; rfl), c2, c1]

/-! ### Steps -/

/-- A step while BUSY is the micro-event at the position. -/
theorem step_busy (s : State) (i k j) (h : s.run = .busy) (hc : s.cmd = some i) (hp : s.pos = .step k j) : step s = busyStep i k j s := by
  simp [step, stepBy, fetch, State.busy, h, sequencerStep, hc, hp]

/-- Every way a step can go: a micro-event of a command, a pin set of a reset, or, when nothing runs, a move of the host. -/
theorem step_cases (s t : State) (h : step s = .next t) :
   (∃ i k j q ev, s.run = .busy ∧ s.cmd = some i ∧ s.pos = .step k j ∧ (plan i)[k]? = some q ∧
      (txnEvents q.1 q.2)[j]? = some ev ∧
     ((∃ e, (issue ev s).2 = some e ∧ t = endCommand (some e) (issue ev s).1) ∨
      ((issue ev s).2 = none ∧ t = advance (plan i).length k j (issue ev s).1))) ∨
   (∃ r ev, s.run = .resetting ∧ s.pos = .resetStep r ∧ inactiveEvents[r]? = some ev ∧
     ((∃ e, (issue ev s).2 = some e ∧ t = endReset (some e) (issue ev s).1) ∨
      ((issue ev s).2 = none ∧ t = advanceReset r (issue ev s).1))) ∨
   (s.busy = false ∧ ((t = s ∧ s.env.agenda = []) ∨ (s.env.agenda ≠ [] ∧ t = dropMove s) ∨
     (∃ e i, .call e ∈ s.env.agenda.head? ∧ seen e s = true ∧ decode e = .ok i ∧ exec i (dropMove s) = .next t) ∨
     (∃ i, s.run = .idle ∧ isCommand i = true ∧ t = accept i (dropMove s)) ∨ (t = beginReset (dropMove s)))) := by
  unfold step stepBy fetch at h
  by_cases hb : s.busy = true
  · rw [if_pos hb] at h
    simp only [sequencerStep] at h
    split at h
    · split at h
      · rename_i hr _ _ i k j hc hp
        simp only [busyStep] at h
        split at h
        · cases h
        · rename_i q hq
          split at h
          · cases h
          · rename_i ev hev
            split at h <;> rename_i s1 he
            · left; cases h; exact ⟨i, k, j, q, ev, hr, hc, hp, hq, hev, .inr (by rw [he]; exact ⟨rfl, rfl⟩)⟩
            · left; cases h; exact ⟨i, k, j, q, ev, hr, hc, hp, hq, hev, .inl (by rw [he]; exact ⟨_, rfl, rfl⟩)⟩
      · cases h
    · split at h
      · rename_i hr _ r hp
        simp only [resettingStep] at h
        split at h
        · cases h
        · rename_i ev hev
          split at h <;> rename_i s1 he
          · right; left; cases h; exact ⟨r, ev, hr, hp, hev, .inr (by rw [he]; exact ⟨rfl, rfl⟩)⟩
          · right; left; cases h; exact ⟨r, ev, hr, hp, hev, .inl (by rw [he]; exact ⟨_, rfl, rfl⟩)⟩
      · cases h
    all_goals rename_i hr; simp [State.busy, hr] at hb
  · rw [if_neg hb] at h
    right; right
    refine ⟨by simpa using hb, ?_⟩
    split at h
    · rename_i hf; split at hf
      · cases hf
      · rename_i m rest ha
        cases m <;> simp only [takeMove] at hf
        all_goals (repeat' split at hf) <;> cases hf
    · rename_i s1 hf; cases h; split at hf
      · cases hf; left; exact ⟨rfl, by assumption⟩
      · rename_i m rest ha
        right; left
        refine ⟨by simp [ha], ?_⟩
        cases m <;> simp only [takeMove] at hf
        all_goals (repeat' split at hf) <;> cases hf <;> rfl
    · rename_i i s1 hf; split at hf
      · cases hf
      · rename_i m rest ha
        cases m with
        | call e =>
          simp only [takeMove] at hf
          split at hf
          · rename_i hs
            split at hf
            · rename_i i' hd; cases hf
              right; right; left
              have : seen e s = true := by cases e <;> exact hs
              exact ⟨e, i, by simp [ha], this, hd, h⟩
            · cases hf
          · cases hf
        | present w =>
          simp only [takeMove] at hf
          (repeat' split at hf) <;> cases hf
        | requestReset => simp only [takeMove] at hf; split at hf <;> cases hf
        | release => cases hf
    · rename_i i s1 hf; cases h; split at hf
      · cases hf
      · rename_i m rest ha
        cases m with
        | call e =>
          simp only [takeMove] at hf
          (repeat' split at hf) <;> cases hf
        | present w =>
          simp only [takeMove] at hf
          split at hf
          · rename_i hs
            split at hf
            · rename_i hd; cases hf
              right; right; right; left
              exact ⟨i, by simpa [seen, State.ready] using hs, cmd32_isCommand _ _ hd, rfl⟩
            · cases hf
          · cases hf
        | requestReset => simp only [takeMove] at hf; split at hf <;> cases hf
        | release => cases hf
    · rename_i s1 hf; cases h; split at hf
      · cases hf
      · rename_i m rest ha
        right;right;right;right
        cases m <;> simp only [takeMove] at hf
        all_goals (repeat' split at hf) <;> cases hf <;> rfl

end Sys2Proof.Laws
end

