-- ==== Sys2Proof/Tests/Slice0.lean ====
section
/-! SUPPORT. Tests: the words of 30_encoding.md R92 and 95_test_vectors.md V14 and V15, one step of each
operation against V4, V10 to V19, the stops, and for every statement with hypotheses a state that meets them. Expected results are the
spec's. -/

namespace Sys2Proof.Tests

open Sys2Proof
open Sys2Proof.Config
open Sys2Proof.Machine
open Sys2Proof.Safety

/-! ### Helpers -/

/-- The vectors' standard start: after a reset and a `CLR` that both ended OK. -/
def started : State :=
  { State.reset with lines := quietLines 0x00, chip := ⟨.byte 0x0F, (List.range 16).map fun k => (k, 0x00)⟩ }

/-- Power-on, of the machine the host runs. -/
abbrev powerOn : State := State.powerOn

/-- With these answers of the pin environment first. -/
def answering (as : List (Answer ErrVal)) (s : State) : State := { s with env := { s.env with pins := ⟨as, .ok⟩ } }

/-- With the pin set after the next `n` answered Err(e1). -/
def failing (n : Nat) (s : State) : State := answering (List.replicate n .ok ++ [.err ⟨1⟩]) s

/-- With one move of the host to come. -/
def moved (m : HostMove) (s : State) : State := { s with env := { s.env with agenda := [m] } }

/-- With these levels of BDIR and BC1. -/
def control (u v : Level) (s : State) : State := { s with lines := { s.lines with bdir := u, bc1 := v } }

/-- With every transient exit responded to. -/
def responding (s : State) : State := { s with env := { s.env with transients := ⟨[], true⟩ } }

/-- BUSY with a command at a position. -/
def busyAt (i : Instr) (k j : Nat) (s : State) : State := { s with run := .busy, cmd := some i, pos := .step k j }

/-- A check of the next state. -/
def after (o : Outcome) (p : State → Bool) : Bool :=
  match o with
  | .next t => p t
  | .fault _ => false
  | .refused _ => false

/-- A check of the stop. -/
def stopsWith (o : Outcome) (f : Fault) : Bool :=
  match o with
  | .next _ => false
  | .fault g => g == f
  | .refused _ => false

/-- Whether a list has a pin set at a place. -/
def isSetAt (evs : List Event) (j : Nat) : Bool :=
  match evs[j]? with
  | some ev => isPinSet ev
  | none => false

/-- What a word decodes to. -/
def read (e : Encoded) : Option Instr :=
  match decode e with
  | .ok i => some i
  | .error _ => none

/-- Why a command word is refused. -/
def refusal (w : BitVec 32) : Option Reject :=
  match decode (.cmd32 w) with
  | .ok _ => none
  | .error r => some r

/-! ### WellFormed -/

theorem test_wellFormed_refuses_shape_above_four_bits : wellFormed (.envs 0xFE) = false := by decide
theorem test_wellFormed_refuses_shape_sixteen : wellFormed (.envs 0x10) = false := by decide
theorem test_wellFormed_accepts_largest_shape : wellFormed (.envs 0x0F) = true := by decide

/-! ### Decoding: one word for each constructor, its bits written out from R80, R82, R83 and R92 -/

theorem test_decode_clr : read (.cmd32 0b00000000000000000000000000000000) = some .clr := by decide
theorem test_decode_wreg : read (.cmd32 0b00000001000001110000000000111000) = some (.wreg 0x07 0x38) := by decide
theorem test_decode_tone : read (.cmd32 0b00000010000000100001001000110100) = some (.tone .c 0x1234) := by decide
theorem test_decode_noise : read (.cmd32 0b00000011000000000000000000011111) = some (.noise 0x1F) := by decide
theorem test_decode_mix : read (.cmd32 0b00000100000000000000000010000001) = some (.mix 0x81) := by decide
theorem test_decode_lvlf : read (.cmd32 0b00000101000000000000000000010100) = some (.lvlf .a 20) := by decide
theorem test_decode_lvle : read (.cmd32 0b00000101000000010000000100000000) = some (.lvle .b) := by decide
theorem test_decode_envf : read (.cmd32 0b00000110000000001010101111001101) = some (.envf 0xABCD) := by decide
theorem test_decode_envs : read (.cmd32 0b00000111000000000000000000001110) = some (.envs 0x0E) := by decide
theorem test_decode_iow : read (.cmd32 0b00001000000000010000000001011100) = some (.iow .b 0x5C) := by decide
theorem test_decode_uina : read (.ctrl2 0b00) = some .uina := by decide
theorem test_decode_uadr : read (.ctrl2 0b11) = some .uadr := by decide
theorem test_decode_uwrt : read (.ctrl2 0b10) = some .uwrt := by decide
theorem test_decode_udrv : read (.data8 0b10100101) = some (.udrv 0xA5) := by decide
theorem test_decode_utxn : read (.txn16 0b0000011100111000) = some (.utxn 0x07 0x38) := by decide
theorem test_decode_reset : read (.req1 0b1) = some .reset := by decide

/-- V15: the reserved words, one for each condition, and the reserved mode code (R81). -/
theorem test_decode_reserved :
    refusal 0x00000001 = some .immNotZero ∧ refusal 0x00010000 = some .selNotZero ∧ refusal 0x01070138 = some .immNotZero ∧
    refusal 0x02031234 = some .noChannel ∧ refusal 0x02041234 = some .noChannel ∧ refusal 0x0301001F = some .selNotZero ∧
    refusal 0x04000100 = some .immNotZero ∧ refusal 0x05000101 = some .immNotZero ∧ refusal 0x05030100 = some .noChannel ∧
    refusal 0x0601ABCD = some .selNotZero ∧ refusal 0x07000010 = some .immNotZero ∧ refusal 0x0802005C = some .noPort ∧
    refusal 0x09000000 = some .reservedOp ∧ refusal 0xFFFFFFFF = some .reservedOp ∧ read (.ctrl2 0b01) = none ∧
    read (.req1 0b0) = none := by decide

/-- V14: words the encoder writes. -/
theorem test_encode :
    encode (.lvlf .c 255) = .cmd32 0x050200FF ∧ encode (.lvle .c) = .cmd32 0x05020100 ∧ encode (.tone .b 0x0100) = .cmd32 0x02010100 ∧
    encode (.utxn 0x10 0xAA) = .txn16 0x10AA := by decide

/-- The table's numbering: a command word, a transaction, the mode codes and the request in a whole byte (assumption 12). -/
theorem test_decodeTableWord :
    decodeTableWord 32 0x01070038 = some (.wreg 0x07 0x38) ∧ decodeTableWord 16 0x0738 = some (.utxn 0x07 0x38) ∧
    decodeTableWord 8 3 = some .uadr ∧ decodeTableWord 8 1 = some .reset ∧ decodeTableWord 8 0xA5 = some (.udrv 0xA5) ∧
    decodeTableWord 32 0x09000000 = none := by decide

/-! ### The public commands -/

/-- V2: sixteen transactions. -/
theorem test_clr : after (exec .clr State.reset) (fun t => t.result == .ok && t.chip == started.chip) = true := by decide +kernel

/-- V10. -/
theorem test_wreg : after (exec (.wreg 0x07 0x38) started)
    (fun t => t.chip == ⟨.byte 0x07, started.chip.regs.write 7 (.byte 0x38)⟩ && t.lines == quietLines 0x38) = true := by decide

/-- V13, the third transaction, under the three values of `CHIP_ADDR_DECODE`. -/
theorem test_wreg_beyond_the_chip :
    after (exec (.wreg 0x10 0xAA) started) (fun t => t.chip == ⟨.byte 0x10, []⟩ && t.result == .ok) = true ∧
    after (exec (.wreg 0x10 0xAA) { started with env := { started.env with addrDecode := .ignore } })
      (fun t => t.chip == ⟨.byte 0x10, started.chip.regs⟩) = true ∧
    after (exec (.wreg 0x10 0xAA) { started with env := { started.env with addrDecode := .aliased } })
      (fun t => t.chip == ⟨.byte 0x10, started.chip.regs.write 0 (.byte 0xAA)⟩) = true := by decide +kernel

/-- V3 for channel C, and V14: the rough byte is not masked. -/
theorem test_tone : after (exec (.tone .c 0xFFFF) started)
    (fun t => t.chip.regs.read 4 == .byte 0xFF && t.chip.regs.read 5 == .byte 0xFF) = true := by decide +kernel

/-- V17 (a): the fine register has the new byte, the rough one the old. -/
theorem test_tone_half_written : after (exec (.tone .a 0x1234) (failing 29 started))
    (fun t => t.result == .fail ⟨1⟩ && t.chip == ⟨.byte 0x00, started.chip.regs.write 0 (.byte 0x34)⟩) = true := by decide +kernel

theorem test_noise_unmasked : after (exec (.noise 0xFF) started) (fun t => t.chip.regs.read 6 == .byte 0xFF) = true := by decide

/-- V14: 0x38 is the three noise-disable flags (R87). -/
theorem test_mix : after (exec (.mix 0x38) started) (fun t => t.chip.regs.read 7 == .byte 0x38) = true ∧
    [MixerFlag.disableToneC, .disableNoiseA, .disableNoiseB, .disableNoiseC, .routeIoA].map (mixerFlag 0x38) =
      [false, true, true, true, false] := by decide

/-- V4: 20 masked to four bits is 4. -/
theorem test_lvlf_masks : after (exec (.lvlf .a 20) started) (fun t => t.chip.regs.read 8 == .byte 0b0100) = true := by decide

/-- V4. -/
theorem test_lvle : after (exec (.lvle .b) started) (fun t => t.chip.regs.read 9 == .byte 0b10000) = true := by decide

/-- V14: fine first. -/
theorem test_envf : after (exec (.envf 0xABCD) started)
    (fun t => t.chip.regs.read 0xB == .byte 0xCD && t.chip.regs.read 0xC == .byte 0xAB && t.chip.al == .byte 0x0C) = true := by
  decide +kernel

/-- R217 for `ENVF`: 0xB has the new byte, 0xC the old. -/
theorem test_envf_half_written : after (exec (.envf 0xABCD) (failing 29 started))
    (fun t => t.result == .fail ⟨1⟩ && t.chip == ⟨.byte 0x0B, started.chip.regs.write 0xB (.byte 0xCD)⟩) = true := by decide +kernel

/-- V14's note: raw 0xFE writes 0x0E. -/
theorem test_envs_masks : after (exec (.envs 0xFE) started) (fun t => t.chip.regs.read 0xD == .byte 0x0E) = true ∧
    [ShapeFlag.hold, .alternate, .attack, .continues].map (shapeFlag 0x0E) = [false, true, true, true] := by decide

/-- V5: port B at 0xD. -/
theorem test_iow_b : after (exec (.iow .b 0x5C) started)
    (fun t => t.chip.regs.read 0xD == .byte 0x5C && t.chip.regs.read 0xF == .byte 0x00) = true := by decide

theorem test_iow_a : after (exec (.iow .a 0x5C) started) (fun t => t.chip.regs.read 0xE == .byte 0x5C) = true := by decide

/-- V18: a command word in OFF is not seen. -/
theorem test_command_not_seen_in_off : after (exec .clr powerOn) (fun t => t == powerOn) = true := by decide

/-- V16, the rows of steps 11 and 26. -/
theorem test_wreg_fails :
    after (exec (.wreg 0x07 0x38) (failing 10 started))
      (fun t => t.chip == Chip.lost && t.lines.bdir == .x && t.trace.length == started.trace.length + 12) = true ∧
    after (exec (.wreg 0x07 0x38) (failing 23 started))
      (fun t => t.chip == ⟨.byte 0x07, started.chip.regs.write 7 (.byte 0x38)⟩ && t.lines.bc1 == .x) = true := by decide +kernel

/-! ### Micro-operations -/

/-- V11: from `AddressLatch`. -/
theorem test_uina : after (exec .uina (control .high .high started)) (fun t => t.mode == .inactive && t.engineReturn == .ok) = true := by
  decide

/-- V19 (e): a transient exit with X on the bus may lose the latch. -/
theorem test_uina_transient : after (exec .uina (responding (control .high .high State.reset))) (fun t => t.chip.al == .x) = true := by
  decide

theorem test_uadr : after (exec .uadr started) (fun t => t.mode == .addressLatch && t.chip == started.chip) = true := by decide

theorem test_uwrt : after (exec .uwrt (control .high .high started)) (fun t => t.mode == .write) = true := by decide

/-- V12: 0xA5. -/
theorem test_udrv : after (exec (.udrv 0xA5) { started with lines := quietLines 0xFF })
    (fun t => t.lines.dataByte == .byte 0xA5 && t.chip == started.chip) = true := by decide

/-- V12: the set of D3 fails, from all ones. -/
theorem test_udrv_fails : after (exec (.udrv 0xA5) (failing 3 { started with lines := quietLines 0xFF }))
    (fun t => t.lines == { quietLines 0xFF with d1 := .low, d3 := .x } && t.engineReturn == .fail ⟨1⟩) = true := by decide

/-- V10 as a micro-operation, its trace in the order of time. -/
theorem test_utxn : after (exec (.utxn 0x07 0x38) started)
    (fun t => (t.trace.take 28).reverse.take 14 ==
      [.set .bdir true, .set .bc1 true, .set .d0 true, .set .d1 true, .set .d2 true, .set .d3 false, .set .d4 false, .set .d5 false,
        .set .d6 false, .set .d7 false, .waited 1, .set .bdir false, .set .bc1 false, .waited 1]) = true := by decide

/-- V19 (a): the first transaction after power-on, the transient exit acted on. -/
theorem test_utxn_after_power_on : after (exec (.utxn 0x07 0x38) (responding State.reset))
    (fun t => t.chip == ⟨.byte 0x07, [(7, 0x38)]⟩) = true := by decide

/-! ### Reset, fetch, and the stops -/

/-- V18, first row. -/
theorem test_reset : after (exec .reset powerOn) (fun t => t == State.reset) = true := by decide

/-- V18, fourth row. -/
theorem test_reset_fails : after (exec .reset (failing 1 powerOn))
    (fun t => t.run == .dead && t.result == .fail ⟨1⟩ && t.lines.bc1 == .x) = true := by decide

theorem test_reset_registers_canonical : State.reset.chip.regs.wf = true ∧ started.chip.regs.wf = true := by decide

theorem test_withFetchWord : after (step (State.reset.withFetchWord 32 0x01070038)) (fun t => t.chip.regs.read 7 == .byte 0x38) = true ∧
    after (step (State.reset.withFetchWord 8 3)) (fun t => t.mode == .addressLatch) = true ∧
    after (step (powerOn.withFetchWord 8 1)) (fun t => t.run == .idle && t.result == .ok) = true := by decide +kernel

theorem test_step_one_micro_event : after (step (busyAt (.wreg 0x07 0x38) 0 27 started)) (fun t => t.run == .idle && t.result == .ok) = true :=
  by decide

/-- Reading "no value" stops (R37). -/
theorem test_fault_noValueRead : stopsWith (step { started with run := .busy }) .noValueRead = true ∧
    stopsWith (step { started with run := .resetting }) .noValueRead = true := by decide

theorem test_fault_positionOutOfRange :
    stopsWith (step (busyAt (.wreg 0x07 0x38) 1 0 started)) .positionOutOfRange = true ∧
    stopsWith (step (busyAt (.wreg 0x07 0x38) 0 28 started)) .positionOutOfRange = true ∧
    stopsWith (step { started with run := .resetting, pos := .resetStep 2 }) .positionOutOfRange = true := by decide

/-! ### Hypotheses met: for each statement with hypotheses, states and operands that meet them together, each clause and boundary -/

/-- A BUSY state that the step table allows: just accepted. -/
def accepted : State := accept (.tone .a 0x1234) started

/-- BUSY before the last wait. -/
def lastWait : State := busyAt (.wreg 0x07 0x38) 0 27 { started with lines := quietLines 0x38 }

theorem test_hyp_DecodeEncodeAgree : wellFormed (.envs 0x0F) = true ∧ wellFormed (.lvlf .c 0xFF) = true := by decide

theorem test_hyp_DecodedWordIsTheOneSpelling : decode (.cmd32 0x0700000F) = .ok (.envs 0x0F) ∧ decode (.ctrl2 0b10) = .ok .uwrt :=
  ⟨rfl, rfl⟩

/-- The lowest reserved value of each condition, and the highest value that decodes. -/
theorem test_hyp_ExactlyTheReservedWordsAreRefused :
    read (.cmd32 (commandWord 9 0 0)) = none ∧ read (.cmd32 (commandWord 2 3 0)) = none ∧ (read (.cmd32 (commandWord 2 2 0))).isSome = true ∧
    read (.cmd32 (commandWord 8 2 0)) = none ∧ (read (.cmd32 (commandWord 8 1 0))).isSome = true ∧
    read (.cmd32 (commandWord 6 1 0)) = none ∧ read (.cmd32 (commandWord 0 0 1)) = none ∧
    read (.cmd32 (commandWord 1 0 0x100)) = none ∧ (read (.cmd32 (commandWord 1 0 0xFF))).isSome = true ∧
    read (.cmd32 (commandWord 5 0 0x101)) = none ∧ (read (.cmd32 (commandWord 5 0 0x100))).isSome = true ∧
    read (.cmd32 (commandWord 7 0 0x10)) = none ∧ (read (.cmd32 (commandWord 7 0 0xF))).isSome = true := by decide

theorem test_hyp_BusModeOfControlLevels :
    [(Level.low, Level.low), (.high, .low), (.high, .high), (.low, .high), (.x, .low), (.low, .x), (.x, .x)].map (fun l => busMode l.1 l.2) =
      [.inactive, .write, .addressLatch, .unlisted, .unknown, .unknown, .unknown] := by decide

theorem test_hyp_PinSetWritesItsLineOnly : started.env.pins.head = .ok ∧ (failing 0 started).env.pins.head = .err ⟨1⟩ ∧
    Line.d0 ≠ Line.bdir ∧ Line.d7.isControl = false := by decide

/-- The three cases of a mode entry, of `Obligations.ModeEntriesOnTheChip` and of `Obligations.ModesPassedThrough`. -/
theorem test_hyp_ModeEntry : answersOk 2 started.env.pins = true ∧ (failing 0 started).env.pins.head = .err ⟨1⟩ ∧
    (failing 1 started).env.pins.head = .ok ∧ ((failing 1 started).env.pins.drop 1).head = .err ⟨1⟩ := by decide

/-- The cases of what an entry makes of the chip: settled and responded exits, and the levels of BC1. -/
theorem test_hyp_ModeEntriesOnTheChip :
    (control .high .high started).mode = .addressLatch ∧ (control .high .low started).mode = .write ∧
    responds (wait 1 started) = true ∧ responds (responding started) = true ∧ responds started = false ∧
    answersOk 2 (control .x .x started).env.pins = true ∧ (responding started).env.transients.head = true := by decide

theorem test_hyp_DriveByte : answersOk 8 started.env.pins = true ∧
    answersOk 0 (failing 0 started).env.pins = true ∧ ((failing 0 started).env.pins.drop 0).head = .err ⟨1⟩ ∧
    answersOk 7 (failing 7 started).env.pins = true ∧ ((failing 7 started).env.pins.drop 7).head = .err ⟨1⟩ := by decide

/-- For `Obligations.StepTable`, both ends, and `Obligations.TransactionCompletes`. -/
theorem test_hyp_StepTable : started.mode = .inactive ∧ answersOk 24 started.env.pins = true ∧ 0 ≤ 28 ∧ 28 ≤ 28 := by decide

theorem test_inSync : InSync State.reset ∧ InSync started := ⟨rfl, rfl⟩

theorem test_controlKnown : ControlKnown started.lines := ⟨by decide, by decide⟩

theorem test_hyp_GoodTransactionWritesOneRegister : answersOk 24 started.env.pins = true ∧ ControlKnown started.lines ∧ InSync started ∧
    (0x0F : Byte).toNat < 16 := ⟨by decide, test_controlKnown, rfl, by decide⟩

/-- A failing step in each range, at both of its ends. -/
theorem test_hyp_TransactionFailsAtStep :
    started.mode = .inactive ∧
    [(0, 0), (25, 22), (2, 2), (9, 9), (12, 11), (14, 12), (21, 19), (26, 23)].all (fun q =>
      pinCount ((txnEvents 0x07 0x38).take q.1) == q.2 && answersOk q.2 (failing q.2 started).env.pins &&
      ((failing q.2 started).env.pins.drop q.2).head == .err ⟨1⟩) = true ∧
    (txnEvents 0x07 0x38)[0]? = some (.pinSet .bdir true) ∧ (txnEvents 0x07 0x38)[12]? = some (.pinSet .bc1 false) ∧
    (txnEvents 0x07 0x38)[21]? = some (.pinSet .d7 false) ∧ (txnEvents 0x07 0x38)[26]? = some (.pinSet .bc1 false) := by decide

/-- For `Obligations.ClearAllFromAnyStart`, also from a start with unknown control levels. -/
theorem test_hyp_ClearAllFromAnyStart : WillRun 16 started ∧ WillRun 16 (control .x .x started) :=
  ⟨⟨rfl, by decide +kernel⟩, ⟨rfl, by decide +kernel⟩⟩

/-- For the commands of one and of two transactions. -/
theorem test_hyp_WillRunInSync : WillRunInSync 1 started ∧ WillRunInSync 2 started ∧ WillRunInSync 2 State.reset :=
  ⟨⟨⟨rfl, by decide⟩, test_controlKnown, rfl⟩, ⟨⟨rfl, by decide⟩, test_controlKnown, rfl⟩, ⟨rfl, by decide⟩, ⟨by decide, by decide⟩, rfl⟩

theorem test_hyp_SetRegisterValue : WillRunInSync 1 started ∧ (0x0F : Byte).toNat < 16 ∧ (0x00 : Byte).toNat < 16 :=
  ⟨test_hyp_WillRunInSync.1, by decide, by decide⟩

theorem test_hyp_SetRegisterValueBeyondTheChip : WillRunInSync 1 started ∧ 16 ≤ (0x10 : Byte).toNat ∧ 16 ≤ (0xFF : Byte).toNat :=
  ⟨test_hyp_WillRunInSync.1, by decide, by decide⟩

theorem test_hyp_EveryCommandEndsOkFromAnyStart : isCommand .clr = true ∧ WillRun (plan .clr).length started ∧
    isCommand (.envs 0xFF) = true ∧ WillRun (plan (.envs 0xFF)).length (control .x .x started) :=
  ⟨rfl, test_hyp_ClearAllFromAnyStart.1, rfl, ⟨rfl, by decide⟩⟩

/-- For `Obligations.PortBAliasesEnvelopeShape`: who reaches 0xF. -/
theorem test_hyp_PortBAliasesEnvelopeShape : ((0x0F, 0x00) : Pair) ∈ plan .clr ∧ ((0x0F, 0x01) : Pair) ∈ plan (.wreg 0x0F 0x01) := by
  decide

/-- For `Obligations.SetEnvelopeShape`: the largest shape a word spells, and the smallest it does not. -/
theorem test_hyp_SetEnvelopeShape : (0x0F : Byte).toNat < 16 ∧ ¬ (0x10 : Byte).toNat < 16 ∧ WillRunInSync 1 started :=
  ⟨by decide, by decide, test_hyp_WillRunInSync.1⟩

/-- For `Obligations.CommandSizes`: each length. -/
theorem test_hyp_CommandSizes : isCommand .clr = true ∧ isCommand (.tone .b 0) = true ∧ isCommand (.envf 0) = true ∧
    isCommand (.iow .a 0) = true := by decide

theorem test_hyp_CommandNotSeenUnlessIdle : isCommand (.noise 1) = true ∧ powerOn.run ≠ .idle ∧ accepted.run ≠ .idle := by decide

/-- The first and the second transaction of a command, and in each a failing step of every clause, at both ends of its range. -/
theorem test_hyp_CommandAbortsAtFirstFailure :
    isCommand (.tone .a 0x1234) = true ∧ started.run = .idle ∧ (plan (.tone .a 0x1234))[0]? = some (0x00, 0x34) ∧
    (plan (.tone .a 0x1234))[1]? = some (0x01, 0x12) ∧
    [(0, 0), (1, 1), (2, 2), (9, 9), (11, 10), (12, 11), (14, 12), (21, 19), (22, 20), (23, 21), (25, 22), (26, 23)].all (fun q =>
      isSetAt (txnEvents 0x00 0x34) q.1 && isSetAt (txnEvents 0x01 0x12) q.1 &&
      [planEvents ((plan (.tone .a 0x1234)).take 0) ++ (txnEvents 0x00 0x34).take q.1,
        planEvents ((plan (.tone .a 0x1234)).take 1) ++ (txnEvents 0x01 0x12).take q.1].map pinCount == [q.2, 24 + q.2] &&
      [q.2, 24 + q.2].all fun c => answersOk c (failing c started).env.pins &&
        ((failing c started).env.pins.drop c).head == .err ⟨1⟩) = true := by decide +kernel

/-- The first data line of the first transaction, and the last of the last. -/
theorem test_hyp_PartialClear : started.run = .idle ∧ ControlKnown started.lines ∧ InSync started ∧
    txnEvents (BitVec.ofNat 8 0) 0x00 = addressEvents ++ .pinSet .d0 false :: (txnEvents 0x00 0x00).drop 3 ∧
    answersOk (24 * 0 + pinCount addressEvents) (failing 2 started).env.pins = true ∧
    ((failing 2 started).env.pins.drop (24 * 0 + pinCount addressEvents)).head = .err ⟨1⟩ ∧
    txnEvents (BitVec.ofNat 8 15) 0x00 = (txnEvents 0x0F 0x00).take 21 ++ .pinSet .d7 false :: (txnEvents 0x0F 0x00).drop 22 ∧
    answersOk (24 * 15 + pinCount ((txnEvents 0x0F 0x00).take 21)) (failing 379 started).env.pins = true ∧
    ((failing 379 started).env.pins.drop (24 * 15 + pinCount ((txnEvents 0x0F 0x00).take 21))).head = .err ⟨1⟩ :=
  ⟨rfl, test_controlKnown, rfl, rfl, by decide, by decide, rfl, by decide +kernel, by decide +kernel⟩

/-- For a tone period and for the envelope period. -/
theorem test_hyp_HalfWrittenPeriod : started.run = .idle ∧ ControlKnown started.lines ∧ InSync started ∧ Line.d3.isControl = false ∧
    txnEvents (toneRoughAddr .a) (highByte 0x1234) =
      (txnEvents 0x01 0x12).take 5 ++ .pinSet .d3 false :: (txnEvents 0x01 0x12).drop 6 ∧
    answersOk (24 + pinCount ((txnEvents 0x01 0x12).take 5)) (failing 29 started).env.pins = true ∧
    ((failing 29 started).env.pins.drop (24 + pinCount ((txnEvents 0x01 0x12).take 5))).head = .err ⟨1⟩ ∧
    txnEvents 0x0C (highByte 0xABCD) = (txnEvents 0x0C 0xAB).take 5 ++ .pinSet .d3 true :: (txnEvents 0x0C 0xAB).drop 6 ∧
    pinCount ((txnEvents 0x0C 0xAB).take 5) = pinCount ((txnEvents 0x01 0x12).take 5) :=
  ⟨rfl, test_controlKnown, rfl, rfl, rfl, by decide, by decide, rfl, by decide⟩

/-- For the statements about reset requests: the run states that honour one, both answers, both failures, and those that do not. -/
theorem test_hyp_Reset : powerOn.run = .off ∧ { started with run := .dead }.run = .dead ∧ started.run = .idle ∧
    answersOk 2 powerOn.env.pins = true ∧ (failing 0 powerOn).env.pins.head = .err ⟨1⟩ ∧
    (failing 1 powerOn).env.pins.head = .ok ∧ ((failing 1 powerOn).env.pins.drop 1).head = .err ⟨1⟩ ∧
    accepted.run = .busy ∧ (beginReset powerOn).run = .resetting := by decide

theorem test_hyp_StepRunsTheDecodedOperation : (moved (.call (.cmd32 0x01070038)) started).run = .idle ∧
    (moved (.call (.cmd32 0x01070038)) started).env.agenda = [.call (.cmd32 0x01070038)] ∧
    decode (.cmd32 0x01070038) = .ok (.wreg 0x07 0x38) := ⟨rfl, rfl, rfl⟩

/-- OFF and DEAD with each of the host's moves, the reset word and another, and IDLE with a reset request. -/
theorem test_hyp_OffAndDeadTakeOnlyReset : powerOn.run = .off ∧ { started with run := .dead }.run = .dead ∧ started.run = .idle ∧
    ([.call (.req1 1), .call (.req1 0), .call (.cmd32 0), .present 0x00000000, .requestReset, .release] : List HostMove).all (fun m =>
      (moved m powerOn).env.agenda == [m] && (moved m powerOn).run == .off &&
      (moved m { started with run := .dead }).env.agenda == [m] && (moved m { started with run := .dead }).run == .dead &&
      (moved m started).env.agenda == [m] && (moved m started).run == .idle) = true := by decide

/-- A command word presented in OFF is not seen; a reset request there, in DEAD and in IDLE begins a reset (R90, R201). -/
theorem test_present_and_requestReset :
    after (step (moved (.present 0x00000000) powerOn)) (fun t => t == powerOn) = true ∧
    [powerOn, { started with run := .dead }, started].all (fun s =>
      after (step (moved .requestReset s)) fun t => t == { s with run := .resetting, pos := .resetStep 0 }) = true := by decide

/-- As a call, and as a presented word. -/
theorem test_hyp_ReservedWordChangesNothing : started.run = .idle ∧ decode (.cmd32 0x09000000) = .error .reservedOp ∧
    (moved (.call (.cmd32 0x09000000)) started).env.agenda = [.call (.cmd32 0x09000000)] ∧
    (moved (.present 0x09000000) started).env.agenda = [.present 0x09000000] := ⟨rfl, rfl, rfl, rfl⟩

theorem test_hyp_PresentedCommandIsAccepted : (moved (.present 0x0300001F) started).run = .idle ∧
    (moved (.present 0x0300001F) started).env.agenda = [.present 0x0300001F] ∧ decode (.cmd32 0x0300001F) = .ok (.noise 0x1F) :=
  ⟨rfl, rfl, rfl⟩

theorem test_hyp_ReleaseIssuesNothing : (moved .release started).busy = false ∧ (moved .release started).env.agenda = [.release] ∧
    (moved .release powerOn).busy = false := by decide

/-- A next step, a next transaction, an end, and a failure. -/
theorem test_hyp_PositionAdvances : accepted.run = .busy ∧ accepted.cmd = some (.tone .a 0x1234) ∧ accepted.pos = .step 0 0 ∧
    (plan (.tone .a 0x1234))[0]? = some (0x00, 0x34) ∧ (plan (.tone .a 0x1234))[1]? = some (0x01, 0x12) ∧
    (plan (.tone .a 0x1234)).length = 2 ∧ (txnEvents 0x00 0x34)[0]? = some (.pinSet .bdir true) ∧
    (txnEvents 0x01 0x12)[27]? = some (.wait 1) ∧ (issue (.pinSet .bdir true) accepted).2 = none ∧
    (issue (.pinSet .bdir true) (failing 0 accepted)).2 = some ⟨1⟩ ∧ (issue (.wait 1) accepted).2 = none := by decide

theorem test_hyp_RunningStepIssuesOneMicroEvent : accepted.busy = true ∧ (beginReset powerOn).busy = true ∧
    (∃ t, step accepted = .next t) ∧ (∃ t, step (beginReset powerOn) = .next t) := ⟨rfl, rfl, ⟨_, rfl⟩, ⟨_, rfl⟩⟩

theorem test_hyp_BlockingCallIsTheSequencersRun : isCommand (.tone .a 0x1234) = true ∧ started.run = .idle := by decide

/-- Each run state. -/
theorem test_hyp_StepGoesOnAndKeepsPosition :
    PositionOk powerOn ∧ PositionOk started ∧ PositionOk { powerOn with run := .dead } ∧
    PositionOk (beginReset powerOn) ∧ PositionOk { State.reset with run := .resetting, pos := .resetStep 1 } ∧
    PositionOk accepted ∧ PositionOk lastWait := by
  refine ⟨⟨rfl, rfl⟩, ⟨rfl, rfl⟩, ⟨rfl, rfl⟩, ⟨0, rfl, by decide, by decide⟩, ⟨1, rfl, by decide, fun _ => rfl⟩,
    ⟨_, 0, 0, (0x00, 0x34), rfl, rfl, rfl, by decide, ?_, fun i hi => ⟨fun h => ?_, fun h => ?_⟩⟩,
    ⟨_, 0, 27, (0x07, 0x38), rfl, rfl, rfl, by decide, ?_, ?_⟩⟩
  · exact ⟨by omega, by omega, by omega, by omega, by omega, by omega⟩
  · omega
  · omega
  · exact ⟨by omega, by omega, by omega, by omega, by omega, fun _ => ⟨rfl, rfl⟩⟩
  · unfold DataAt; decide

/-- For the invariants that a step keeps: a host's idle step, and a command's last. -/
theorem test_hyp_StepKeeps : (PositionOk lastWait ∧ HostDriven lastWait) ∧ RegistersOk lastWait ∧ LinesFollowTrace State.reset ∧ HostDriven (moved .requestReset started) ∧
    InactiveAfterOk lastWait ∧ InactiveAfterOk State.reset ∧ OutcomeOk powerOn ∧ ErrorFromPins State.reset ∧
    step State.reset = .next State.reset ∧ step powerOn = .next powerOn ∧ (∃ t, step lastWait = .next t) := by
  refine ⟨⟨test_hyp_StepGoesOnAndKeepsPosition.2.2.2.2.2.2, fun _ h => by cases h⟩, rfl, fun n => by cases n <;> rfl, ?_, ?_,
    fun _ _ => rfl, ⟨fun _ => rfl, ?_⟩, ?_, rfl, rfl, ⟨_, rfl⟩⟩
  · intro m h; cases h with
    | head => rfl
    | tail _ h => cases h
  · intro h; cases h
  · intro h; cases h
  · intro e h; cases h

/-- After a failed reset: DEAD, and an error the pins gave. -/
theorem test_hyp_StepKeeps_dead : ∃ t, exec .reset (failing 0 powerOn) = .next t ∧ OutcomeOk t ∧ ErrorFromPins t := by
  refine ⟨_, rfl, ⟨?_, fun _ => ⟨rfl, _, rfl⟩⟩, ?_⟩
  · intro h; cases h
  · intro e h; cases h; exact ⟨.bdir, false, .head _⟩

/-- R31: the machine over a type of error values without values, and its step with the parameters as arguments (R14). -/
theorem test_any_error_type : stepOf (State.powerOn : State Empty) = .next State.powerOn ∧
    stepUnder { (Env.quiet : Env Empty) with agenda := [.requestReset] } (State.powerOn : State Empty).toBlock =
      .next ((beginReset (State.powerOn : State Empty)).toBlock, Env.quiet) := ⟨rfl, rfl⟩

theorem test_hyp_ControllerIndependentOfTheChip :
    SameController started { started with chip := Chip.lost, env := { started.env with transients := ⟨[true], false⟩, addrDecode := .ignore } } :=
  ⟨rfl, rfl, rfl, rfl, rfl, rfl, rfl, rfl, rfl⟩

theorem test_hyp_TraceDependsOnlyOnCommandAndAnswers : isCommand (.mix 0x38) = true ∧ started.run = .idle ∧ State.reset.run = .idle ∧
    started.env.pins = State.reset.env.pins ∧ started.lines ≠ State.reset.lines := by decide

/-- For `Obligations.FrameOfEveryOperation`, and `Obligations.StateResetIsPowerOnThenReset` under a quiet environment. -/
theorem test_hyp_FrameOfEveryOperation : answersOk 2 started.env.pins = true ∧ isCommand .clr = true ∧ started.run = .idle ∧ isCommand .uina = false ∧ Instr.uina ≠ Instr.reset := by decide

end Sys2Proof.Tests
end

section
/-! PROOFS. The address space of 20_memory.md: the register that port B data and the envelope shape share (R53, R216). -/

namespace Sys2Proof.Proofs

open Sys2Proof
open Sys2Proof.Machine
open Sys2Proof.Safety
open Sys2Proof.Laws

variable {E : Type}

/-! ### One command after another -/

/-- R72 carries over from one command to the next: the start of the second is again known and in sync. -/
theorem runAccepted_willRunInSync (i : Instr) (n : Nat) (s : State E) (h : WillRunInSync ((plan i).length + n) s) :
    WillRunInSync n (runAccepted i s) := by
  obtain ⟨⟨-, hpins⟩, hknown, hsync⟩ := h
  rw [Nat.mul_add] at hpins
  obtain ⟨_, -, rfl, -, -, -, hrest, -⟩ :=
    runEvents_part (planEvents (plan i)) (accept i s) _ (24 * n) (pinCount_plan _) hpins
  obtain ⟨hsync', hknown', -⟩ :=
    plan_inSync (plan i) (accept i s) hknown hsync (answersOk_mono (Nat.le_add_right _ _) hpins)
  exact ⟨⟨rfl, hrest⟩, hknown', hsync'⟩

theorem willRunInSync_mono {m n : Nat} (hmn : m ≤ n) {s : State E} (h : WillRunInSync n s) : WillRunInSync m s := by
  obtain ⟨⟨hidle, hpins⟩, hstart⟩ := h
  exact ⟨⟨hidle, answersOk_mono (Nat.mul_le_mul_left 24 hmn) hpins⟩, hstart⟩

/-- A command whose plan is one pair runs to its end and writes that register alone. -/
theorem exec_wrote_pair {i : Instr} {a v : Byte} (hp : plan i = [(a, v)]) (ha : a.toNat < 16) {s : State}
    (h : WillRunInSync 1 s) :
    exec i s = .next (runAccepted i s) ∧ WrotePlan [(a, v)] (a, v) s (runAccepted i s) := by
  obtain ⟨-, hwrote⟩ := runCommand_wrote i [] (a, v) s hp (by simpa [hp] using ha) (by simpa [hp] using h)
  exact ⟨exec_command i s (by simp [isCommand, hp]) h.1.1, hp ▸ hwrote⟩

@[simp] theorem planned_pair_same (a v : Byte) : planned [(a, v)] a.toNat = some v := by simp [planned]

theorem planned_pair_other (a v : Byte) {r : Nat} (h : r ≠ a.toNat) : planned [(a, v)] r = none := by
  simpa [planned] using h.symm

/-- Two commands that write one and the same register: each leaves its own byte there, and no other register changes. -/
theorem exec_overwrites {i j : Instr} {a v w : Byte} (hi : plan i = [(a, v)]) (hj : plan j = [(a, w)]) (ha : a.toNat < 16)
    {s : State} (h : WillRunInSync 2 s) :
    ∃ u t, exec i s = .next u ∧ exec j u = .next t ∧ t.result = .ok ∧
      u.chip.regs.read a.toNat = .byte v ∧ t.chip.regs.read a.toNat = .byte w ∧
      (∀ r, r ≠ a.toNat → t.chip.regs.read r = s.chip.regs.read r) := by
  obtain ⟨hei, hwi⟩ := exec_wrote_pair hi ha (willRunInSync_mono (by decide) h)
  have hu : WillRunInSync 1 (runAccepted i s) := runAccepted_willRunInSync i 1 s (by rw [hi]; exact h)
  obtain ⟨hej, hwj⟩ := exec_wrote_pair hj ha hu
  refine ⟨_, _, hei, hej, hwj.ended.result, hwi.written _ _ (planned_pair_same a v), hwj.written _ _ (planned_pair_same a w), ?_⟩
  intro r hr
  rw [hwj.others r (planned_pair_other a w hr), hwi.others r (planned_pair_other a v hr)]

/-! ### Who reaches 0xF -/

/-- The registers of the typed commands end at 0xE (R51, R84): none of their pairs is at 0xF. -/
theorem plan_names_0xF {i : Instr} {v : Byte} (h : ((0x0F, v) : Pair) ∈ plan i) : i = .clr ∨ i = .wreg 0x0F v := by
  cases i with
  | clr => exact .inl rfl
  | wreg address value => simp_all [plan]
  | tone ch f => cases ch <;> simp [plan, periodPlan, toneFineAddr, toneRoughAddr, selOfChannel] at h
  | noise f => simp [plan, noiseAddr] at h
  | mix m => simp [plan, mixerAddr] at h
  | lvlf ch n => cases ch <;> simp [plan, levelAddr, selOfChannel] at h
  | lvle ch => cases ch <;> simp [plan, levelAddr, selOfChannel] at h
  | envf f => simp [plan, periodPlan, envFineAddr, envRoughAddr] at h
  | envs x => simp [plan, envShapeAddr] at h
  | iow p d => cases p <;> simp [plan, portAddr] at h
  | uina | uadr | uwrt | udrv | utxn | reset => simp [plan] at h

/-- Settles O29: both commands are writes of the one register 0xD, so the later byte stands. -/
theorem portBAliasesEnvelopeShape : Obligations.PortBAliasesEnvelopeShape := by
  have hshape : ∀ x, plan (.envs x) = [(0x0D, x &&& 0x0F)] := fun _ => rfl
  have hport : ∀ d, plan (.iow .b d) = [(0x0D, d)] := fun _ => rfl
  refine ⟨fun x d s h => ⟨?_, ?_⟩, hport, fun _ _ => plan_names_0xF⟩
  · exact exec_overwrites (hshape x) (hport d) (by decide) h
  · exact exec_overwrites (hport d) (hshape x) (by decide) h

end Sys2Proof.Proofs
end

section
/-! PROOFS. The level byte of 30_encoding.md: what the level mask keeps, and that the envelope byte is out of its reach (R86). -/

namespace Sys2Proof.Proofs

open Sys2Proof
open Sys2Proof.Config
open Sys2Proof.Machine

theorem fixedLevelByte_low (n : Byte) : (fixedLevelByte n).extractLsb' 0 4 = n.extractLsb' 0 4 := by
  have hmask : levelMask.extractLsb' 0 4 = BitVec.allOnes 4 := rfl
  rw [fixedLevelByte, BitVec.extractLsb'_and, hmask, BitVec.and_allOnes]

theorem fixedLevelByte_high (n : Byte) : (fixedLevelByte n).extractLsb' 4 4 = 0#4 := by
  have hmask : levelMask.extractLsb' 4 4 = 0#4 := rfl
  rw [fixedLevelByte, BitVec.extractLsb'_and, hmask, BitVec.and_zero]

/-- The envelope byte has a bit above bit 3, and no byte of `Fixed` has one. -/
theorem fixedLevelByte_ne_levelEnvelope (n : Byte) : fixedLevelByte n ≠ levelEnvelope := by
  intro h
  have hhigh : levelEnvelope.extractLsb' 4 4 = 0#4 := h ▸ fixedLevelByte_high n
  exact absurd hhigh (by decide)

/-- Settles O31: the byte is `n` under the level mask, and the two plans are the model's own. -/
theorem levelByteForms : Obligations.LevelByteForms := fun _ n =>
  ⟨fixedLevelByte n, rfl, fixedLevelByte_low n, fixedLevelByte_high n, fixedLevelByte_ne_levelEnvelope n, rfl⟩

end Sys2Proof.Proofs
end

section
/-! PROOFS. The commands of one transaction (41_register_commands.md R144 to R146, R148, R149): the operation that each word on the
command port decodes to, and the one register that the operation writes. -/

namespace Sys2Proof.Proofs

open Sys2Proof
open Sys2Proof.Machine
open Sys2Proof.Safety
open Sys2Proof.Laws

/-! ### Their words (R92) -/

@[simp] theorem channelOfSel_selOfChannel (ch : Channel) : channelOfSel (selOfChannel ch) = some ch := by
  cases ch <;> rfl

@[simp] theorem portOfSel_selOfPort (p : IoPort) : portOfSel (selOfPort p) = some p := by
  cases p <;> rfl

@[simp] theorem decodeByteForm_byteImm (b : Byte) (form : Byte → Instr) : decodeByteForm 0#8 (byteImm b) form = .ok (form b) := by
  simp [decodeByteForm]

@[simp] theorem decodeLevel_byteImm (ch : Channel) (n : Byte) : decodeLevel (selOfChannel ch) (byteImm n) = .ok (.lvlf ch n) := by
  simp [decodeLevel]

@[simp] theorem decodeLevel_envelope (ch : Channel) : decodeLevel (selOfChannel ch) 0x0100#16 = .ok (.lvle ch) := by
  have hhigh : highByte 0x0100#16 ≠ 0#8 := by decide
  simp [decodeLevel, hhigh]

/-- The must-be-zero bits of an `ENVS` word are zero exactly for a shape of four bits (R92). -/
theorem shapeImm_high_eq_zero (x : Byte) : (byteImm x).extractLsb' 4 12 = 0#12 ↔ x.toNat < 16 := by
  have htoNat : ((byteImm x).extractLsb' 4 12).toNat = x.toNat / 16 := by
    have := x.isLt
    simp only [byteImm, BitVec.extractLsb'_toNat, BitVec.toNat_setWidth, Nat.shiftRight_eq_div_pow]
    omega
  rw [← BitVec.toNat_inj, htoNat, BitVec.toNat_ofNat]
  omega

theorem decode_noise (f : Byte) : decode (.cmd32 (commandWord 0x03 0 (byteImm f))) = .ok (.noise f) := by
  simp [decode, decodeCommand]

theorem decode_mix (m : Byte) : decode (.cmd32 (commandWord 0x04 0 (byteImm m))) = .ok (.mix m) := by
  simp [decode, decodeCommand]

theorem decode_lvlf (ch : Channel) (n : Byte) :
    decode (.cmd32 (commandWord 0x05 (selOfChannel ch) (byteImm n))) = .ok (.lvlf ch n) := by
  simp [decode, decodeCommand]

theorem decode_lvle (ch : Channel) : decode (.cmd32 (commandWord 0x05 (selOfChannel ch) 0x0100)) = .ok (.lvle ch) := by
  simp [decode, decodeCommand]

theorem decode_envs (x : Byte) (h : x.toNat < 16) : decode (.cmd32 (commandWord 0x07 0 (byteImm x))) = .ok (.envs x) := by
  have hhigh := (shapeImm_high_eq_zero x).mpr h
  simp [decode, decodeCommand, hhigh]

theorem decode_iow (p : IoPort) (d : Byte) :
    decode (.cmd32 (commandWord 0x08 (selOfPort p) (byteImm d))) = .ok (.iow p d) := by
  simp [decode, decodeCommand]

/-! ### Their registers -/

/-- The mask of R86 and of R88 keeps a byte modulo 16. -/
theorem and_lowMask_eq_mod (b : Byte) : b &&& 0x0F = BitVec.ofNat 8 (b.toNat % 16) := by
  apply BitVec.eq_of_toNat_eq
  have hmask : (b &&& 0x0F).toNat = b.toNat % 16 := Nat.and_two_pow_sub_one_eq_mod b.toNat 4
  rw [hmask, BitVec.toNat_ofNat]
  omega

theorem plan_lvlf (ch : Channel) (n : Byte) : plan (.lvlf ch n) = [(levelAddr ch, BitVec.ofNat 8 (n.toNat % 16))] := by
  rw [← and_lowMask_eq_mod]
  rfl

theorem plan_envs (x : Byte) : plan (.envs x) = [(0x0D, BitVec.ofNat 8 (x.toNat % 16))] := by
  rw [← and_lowMask_eq_mod]
  rfl

/-- A command whose plan is one pair leaves the pair's value in its register, and no other register changes (R72, R140). -/
theorem exec_sets_register {i : Instr} {a v : Byte} (hp : plan i = [(a, v)]) (ha : a.toNat < 16) {s : State}
    (h : WillRunInSync 1 s) :
    ∃ t, exec i s = .next t ∧ t.chip.regs.read a.toNat = .byte v ∧ WrotePlan [(a, v)] (a, v) s t := by
  obtain ⟨hexec, hwrote⟩ := exec_wrote_pair hp ha h
  exact ⟨_, hexec, hwrote.written _ _ (planned_pair_same a v), hwrote⟩

/-- Settles O23: the plan is the operand itself at 0x6. -/
theorem setNoise : Obligations.SetNoise := fun f _ =>
  ⟨decode_noise f, exec_sets_register (i := .noise f) rfl (by decide)⟩

/-- Settles O24: the plan is the raw byte at 0x7. -/
theorem setMixerSettings : Obligations.SetMixerSettings := fun m _ =>
  ⟨decode_mix m, exec_sets_register (i := .mix m) rfl (by decide)⟩

/-- Settles O25: both forms write the channel's level register, the one through the level mask, the other with bit 4 alone. -/
theorem setChannelLevel : Obligations.SetChannelLevel := by
  intro ch n s
  have haddr : (levelAddr ch).toNat < 16 := by cases ch <;> decide
  have hfixed := exec_sets_register (s := s) (plan_lvlf ch n) haddr
  have henvelope := exec_sets_register (i := .lvle ch) (s := s) rfl haddr
  have hlvlf := decode_lvlf ch n
  have hlvle := decode_lvle ch
  cases ch <;> exact ⟨hlvlf, hlvle, fun h => ⟨hfixed h, henvelope h⟩⟩

/-- Settles O27: the plan masks every byte; the word spells those that the mask leaves as they are. -/
theorem setEnvelopeShape : Obligations.SetEnvelopeShape := fun x _ =>
  ⟨decode_envs x, exec_sets_register (plan_envs x) (by decide)⟩

/-- Settles O28: the plan is the byte itself at the port's register, 0xE or 0xD. -/
theorem setIoPortData : Obligations.SetIoPortData := by
  intro p d s
  have haddr : (portAddr p).toNat < 16 := by cases p <;> decide
  have hword := decode_iow p d
  have hwrite := exec_sets_register (i := .iow p d) (s := s) rfl haddr
  cases p <;> exact ⟨hword, hwrite⟩

end Sys2Proof.Proofs
end

section
/-! PROOFS. Encodings (30_encoding.md sections 1 and 3): the decoder undoes the encoder, a word that decodes is the one spelling of
its operation, and which command words are reserved. -/

namespace Sys2Proof.Proofs

open Sys2Proof
open Sys2Proof.Machine
open Sys2Proof.Laws

/-! ### Decoding what the encoder wrote (R92) -/

theorem decode_clr : decode (.cmd32 (commandWord 0x00 0 0)) = .ok .clr := by
  simp [decode, decodeCommand]

theorem decode_wreg (a v : Byte) : decode (.cmd32 (commandWord 0x01 a (byteImm v))) = .ok (.wreg a v) := by
  simp [decode, decodeCommand]

theorem decode_tone (ch : Channel) (f : Period) :
    decode (.cmd32 (commandWord 0x02 (selOfChannel ch) f)) = .ok (.tone ch f) := by
  simp [decode, decodeCommand]

theorem decode_envf (f : Period) : decode (.cmd32 (commandWord 0x06 0 f)) = .ok (.envf f) := by
  simp [decode, decodeCommand]

theorem decode_utxn (a v : Byte) : decode (.txn16 (twoBytes a v)) = .ok (.utxn a v) := by
  simp [decode]

/-- The one check of `wellFormed`: a shape of four bits (R88). -/
theorem wellFormed_envs (x : Byte) : wellFormed (.envs x) = true ↔ x.toNat < 16 := by
  have hhigh : (x.extractLsb' 4 4).toNat = x.toNat / 16 := by
    have := x.isLt
    simp only [BitVec.extractLsb'_toNat, Nat.shiftRight_eq_div_pow]
    omega
  rw [wellFormed, beq_iff_eq, ← BitVec.toNat_inj, hhigh]
  exact Nat.div_eq_zero_iff_lt (by decide)

/-- Settles O1: one lemma a row of the table; the shape of `ENVS` is the only operand that has to fit. -/
theorem decodeEncodeAgree : Obligations.DecodeEncodeAgree := by
  intro i hwf
  cases i with
  | clr => exact decode_clr
  | wreg a v => exact decode_wreg a v
  | tone ch f => exact decode_tone ch f
  | noise f => exact decode_noise f
  | mix m => exact decode_mix m
  | lvlf ch n => exact decode_lvlf ch n
  | lvle ch => exact decode_lvle ch
  | envf f => exact decode_envf f
  | envs x => exact decode_envs x ((wellFormed_envs x).mp hwf)
  | iow p d => exact decode_iow p d
  | uina | uadr | uwrt | udrv v | reset => rfl
  | utxn a v => exact decode_utxn a v

/-! ### What each part of the decoder accepts (R84, R91) -/

theorem channelOfSel_eq_some {sel : Byte} {ch : Channel} : channelOfSel sel = some ch ↔ sel = selOfChannel ch := by
  constructor
  · intro h
    simp only [channelOfSel] at h
    repeat' split at h
    all_goals cases h <;> assumption
  · rintro rfl
    exact channelOfSel_selOfChannel ch

/-- A selector names a channel, or is beyond the three (R84). -/
theorem channelOfSel_cases (sel : Byte) :
    (∃ ch, channelOfSel sel = some ch ∧ sel.toNat < 3) ∨ (channelOfSel sel = none ∧ 3 ≤ sel.toNat) := by
  simp only [channelOfSel]
  (repeat' split) <;> simp <;> bv_omega

theorem portOfSel_eq_some {sel : Byte} {p : IoPort} : portOfSel sel = some p ↔ sel = selOfPort p := by
  constructor
  · intro h
    simp only [portOfSel] at h
    repeat' split at h
    all_goals cases h <;> assumption
  · rintro rfl
    exact portOfSel_selOfPort p

/-- A selector names a port, or is beyond the two (R84). -/
theorem portOfSel_cases (sel : Byte) :
    (∃ p, portOfSel sel = some p ∧ sel.toNat < 2) ∨ (portOfSel sel = none ∧ 2 ≤ sel.toNat) := by
  simp only [portOfSel]
  (repeat' split) <;> simp <;> bv_omega

/-- A field constraint before the rest of the decoder: what is accepted meets it. -/
theorem constraint_eq_ok {c : Prop} [Decidable c] {x : Except Reject Instr} {r : Reject} {i : Instr} :
    (if c then x else .error r) = .ok i ↔ c ∧ x = .ok i := by
  split <;> simp_all

/-- A field constraint before the rest of the decoder: what breaks it is refused. -/
theorem constraint_refused {c : Prop} [Decidable c] {x : Except Reject Instr} {r : Reject} :
    (∃ r', (if c then x else .error r) = .error r') ↔ ¬ c ∨ ∃ r', x = .error r' := by
  split <;> simp_all

theorem highByte_eq_zero_iff (f : Period) : highByte f = 0#8 ↔ f.toNat < 0x100 := highByte_eq_zero f

theorem decodeByteForm_eq_ok {sel : Byte} {imm : Period} {form : Byte → Instr} {i : Instr} :
    decodeByteForm sel imm form = .ok i ↔ sel = 0 ∧ highByte imm = 0 ∧ form (lowByte imm) = i := by
  simp [decodeByteForm, constraint_eq_ok]

theorem decodeByteForm_refused {sel : Byte} {imm : Period} {form : Byte → Instr} :
    (∃ r, decodeByteForm sel imm form = .error r) ↔ sel ≠ 0 ∨ 0x100 ≤ imm.toNat := by
  simp [decodeByteForm, constraint_refused, highByte_eq_zero_iff]

/-- The two level forms share a code: one byte, or the single word 0x0100 (R92, R93). -/
theorem decodeLevel_eq_ok {sel : Byte} {imm : Period} {i : Instr} (h : decodeLevel sel imm = .ok i) :
    ∃ ch, sel = selOfChannel ch ∧ ((highByte imm = 0 ∧ i = .lvlf ch (lowByte imm)) ∨ (imm = 0x0100 ∧ i = .lvle ch)) := by
  simp only [decodeLevel] at h
  split at h
  · cases h
  · next ch hch =>
    refine ⟨ch, channelOfSel_eq_some.mp hch, ?_⟩
    split at h
    · next hhigh => cases h; exact .inl ⟨hhigh, rfl⟩
    · obtain ⟨himm, hi⟩ := constraint_eq_ok.mp h
      cases hi
      exact .inr ⟨himm, rfl⟩

theorem decodeLevel_refused {sel : Byte} {imm : Period} :
    (∃ r, decodeLevel sel imm = .error r) ↔ 3 ≤ sel.toNat ∨ 0x101 ≤ imm.toNat := by
  rcases channelOfSel_cases sel with ⟨ch, hch, hsel⟩ | ⟨hch, hsel⟩
  · simp only [decodeLevel, hch, highByte_eq_zero]
    split
    · simp; omega
    · rw [constraint_refused]
      simp; bv_omega
  · simp [decodeLevel, hch, hsel]

/-- The must-be-zero bits of an `ENVS` word (R92). -/
theorem shapeField_eq_zero {imm : Period} : imm.extractLsb' 4 12 = 0#12 ↔ imm.toNat < 16 := by
  have hdiv : (imm.extractLsb' 4 12).toNat = imm.toNat / 16 := by
    have := imm.isLt
    simp only [BitVec.extractLsb'_toNat, Nat.shiftRight_eq_div_pow]
    omega
  rw [← BitVec.toNat_inj, hdiv]
  exact Nat.div_eq_zero_iff_lt (by decide)

/-! ### Whole command words -/

/-- The operation codes of R92, and the reserved ones. -/
theorem op_cases (op : Byte) :
    9 ≤ op.toNat ∨ op = 0 ∨ op = 1 ∨ op = 2 ∨ op = 3 ∨ op = 4 ∨ op = 5 ∨ op = 6 ∨ op = 7 ∨ op = 8 := by
  bv_omega

theorem decode_reservedOp {op : Byte} (sel : Byte) (imm : Period) (h : 9 ≤ op.toNat) :
    decode (.cmd32 (commandWord op sel imm)) = .error .reservedOp := by
  simp only [decode, decodeCommand, opField_commandWord]
  split
  case h_10 => rfl
  all_goals omega

/-- The operation that a command word decodes to is spelled by the fields of the word. -/
theorem decode_commandWord_ok {op sel : Byte} {imm : Period} {i : Instr}
    (h : decode (.cmd32 (commandWord op sel imm)) = .ok i) :
    wellFormed i = true ∧ encode i = .cmd32 (commandWord op sel imm) := by
  rcases op_cases op with hop | rfl | rfl | rfl | rfl | rfl | rfl | rfl | rfl | rfl
  · rw [decode_reservedOp sel imm hop] at h
    cases h
  all_goals simp only [decode, decodeCommand, opField_commandWord, selField_commandWord, immField_commandWord, BitVec.reduceToNat,
    constraint_eq_ok, decodeByteForm_eq_ok, Except.ok.injEq] at h
  · obtain ⟨rfl, rfl, rfl⟩ := h
    exact ⟨rfl, rfl⟩
  · obtain ⟨himm, rfl⟩ := h
    simp [wellFormed, encode, byteImm_lowByte imm himm]
  · split at h
    · next ch hch =>
      cases h
      simp [wellFormed, encode, channelOfSel_eq_some.mp hch]
    · cases h
  · obtain ⟨rfl, himm, rfl⟩ := h
    simp [wellFormed, encode, byteImm_lowByte imm himm]
  · obtain ⟨rfl, himm, rfl⟩ := h
    simp [wellFormed, encode, byteImm_lowByte imm himm]
  · obtain ⟨ch, rfl, ⟨himm, rfl⟩ | ⟨rfl, rfl⟩⟩ := decodeLevel_eq_ok h
    · simp [wellFormed, encode, byteImm_lowByte imm himm]
    · exact ⟨rfl, rfl⟩
  · obtain ⟨rfl, rfl⟩ := h
    exact ⟨rfl, rfl⟩
  · obtain ⟨rfl, himm, rfl⟩ := h
    have hlt := shapeField_eq_zero.mp himm
    have hbyte := byteImm_lowByte imm ((highByte_eq_zero imm).mpr (by omega))
    refine ⟨(wellFormed_envs _).mpr ?_, by simp [encode, hbyte]⟩
    rw [lowByte_toNat]
    omega
  · split at h
    · next p hp =>
      obtain ⟨himm, hi⟩ := constraint_eq_ok.mp h
      cases hi
      simp [wellFormed, encode, portOfSel_eq_some.mp hp, byteImm_lowByte imm himm]
    · cases h

theorem decodeMode_ok {w : BitVec 2} {i : Instr} (h : decodeMode w = .ok i) :
    wellFormed i = true ∧ encode i = .ctrl2 w := by
  simp only [decodeMode] at h
  repeat' split at h
  all_goals cases h
  all_goals subst w; exact ⟨rfl, rfl⟩

/-- Settles O2: a command word is its three fields, and each row of the table gives back the fields it was read from. -/
theorem decodedWordIsTheOneSpelling : Obligations.DecodedWordIsTheOneSpelling := by
  intro e i h
  cases e with
  | cmd32 w =>
    rw [← commandWord_fields w] at h ⊢
    exact decode_commandWord_ok h
  | ctrl2 w => exact decodeMode_ok h
  | data8 w => cases h; exact ⟨rfl, rfl⟩
  | txn16 w => cases h; simp [wellFormed, encode, twoBytes_bytes]
  | req1 w =>
    obtain ⟨rfl, hi⟩ := constraint_eq_ok.mp h
    cases hi
    exact ⟨rfl, rfl⟩

/-- Settles O3: the constraints of R92, row by row. -/
theorem exactlyTheReservedWordsAreRefused : Obligations.ExactlyTheReservedWordsAreRefused := by
  intro op sel imm
  rcases op_cases op with hop | rfl | rfl | rfl | rfl | rfl | rfl | rfl | rfl | rfl
  · simp [decode_reservedOp sel imm hop, hop]
  all_goals
    simp [decode, decodeCommand, constraint_refused, decodeByteForm_refused, decodeLevel_refused, highByte_eq_zero_iff,
      shapeField_eq_zero]
  · rcases channelOfSel_cases sel with ⟨ch, hch, hsel⟩ | ⟨hch, hsel⟩ <;> simp [hch, hsel]
  · rcases portOfSel_cases sel with ⟨p, hp, hsel⟩ | ⟨hp, hsel⟩ <;> simp [hp, hsel, constraint_refused]

/-- Settles O4: each word is evaluated. -/
theorem spelledWordsDecode : Obligations.SpelledWordsDecode := by
  unfold Obligations.SpelledWordsDecode
  decide

end Sys2Proof.Proofs
end

section
/-! PROOFS. Shared rules: a list of micro-events ends in one of two ways, decided by the answers to come; an operation of the table
is of one of three kinds. -/

namespace Sys2Proof.Proofs

open Sys2Proof
open Sys2Proof.Machine
open Sys2Proof.Safety
open Sys2Proof.Laws

variable {E : Type}

/-! ### How a list of micro-events ends (R112) -/

/-- Each answer of the next pin sets is Ok, or one of the events is the first whose answer is not. -/
theorem answers_cases (evs : List Event) (p : Script (Answer E)) :
    answersOk (pinCount evs) p = true ∨
    ∃ pre n b post e, evs = pre ++ .pinSet n b :: post ∧ answersOk (pinCount pre) p = true ∧
      (p.drop (pinCount pre)).head = .err e := by
  induction evs generalizing p with
  | nil => exact .inl rfl
  | cons ev evs ih =>
    cases ev with
    | wait d =>
      rcases ih p with hok | ⟨pre, n, b, post, e, rfl, hok, herr⟩
      · exact .inl (by simpa using hok)
      · exact .inr ⟨.wait d :: pre, n, b, post, e, rfl, by simpa using hok, by simpa using herr⟩
    | pinSet m c =>
      cases hhead : p.head with
      | err e => exact .inr ⟨[], m, c, evs, e, rfl, rfl, hhead⟩
      | ok =>
        rcases ih p.tail with hok | ⟨pre, n, b, post, e, rfl, hok, herr⟩
        · exact .inl (by simpa [answersOk, hhead] using hok)
        · exact .inr ⟨.pinSet m c :: pre, n, b, post, e, rfl, by simpa [answersOk, hhead] using hok,
          by simpa [drop_succ] using herr⟩

/-- The state in which the first failing pin set, after `pre`, leaves everything but the chip. -/
structure FailedAt (pre : List Event) (n : Line) (b : Bool) (e : E) (s t : State E) : Prop where
  lines : t.lines = (linesAfter pre s.lines).set n .x
  trace : t.trace = .setFailed n b e :: doneEntries pre ++ s.trace
  pins : t.env.pins = s.env.pins.drop (pinCount pre + 1)

theorem drop_succ_tail {α : Type} (p : Script α) (n : Nat) : (p.drop n).tail = p.drop (n + 1) := (drop_drop p n 1)

/-- A pin set that fails after `pre` was answered Ok. -/
theorem pinSet_failedAt {pre : List Event} (n : Line) (b : Bool) {s : State E} {e : E}
    (hok : answersOk (pinCount pre) s.env.pins = true) (herr : (s.env.pins.drop (pinCount pre)).head = .err e) :
    FailedAt pre n b e s (pinSet n b (runEvents pre s).1).1 := by
  obtain ⟨-, hlines, htrace, hpins⟩ := runEvents_ok pre s hok
  constructor
  · simp [hlines, hpins, herr, levelAfter]
  · simp [htrace, hpins, herr, setEntry]
  · simp [hpins, drop_succ_tail]

/-- A list of micro-events runs through, or stops at its first failing pin set. -/
theorem runEvents_cases (evs : List Event) (s : State E) :
    (answersOk (pinCount evs) s.env.pins = true ∧ (runEvents evs s).2 = none) ∨
    ∃ pre n b post e, evs = pre ++ .pinSet n b :: post ∧ (runEvents evs s).2 = some e ∧
      FailedAt pre n b e s (runEvents evs s).1 := by
  rcases answers_cases evs s.env.pins with hok | ⟨pre, n, b, post, e, rfl, hok, herr⟩
  · exact .inl ⟨hok, (runEvents_ok evs s hok).1⟩
  · rw [runEvents_fail pre n b post s e hok herr]
    exact .inr ⟨pre, n, b, post, e, rfl, rfl, pinSet_failedAt n b hok herr⟩

/-- A list that did not fail was answered Ok. -/
theorem answersOk_of_runEvents {evs : List Event} {s : State E} (h : (runEvents evs s).2 = none) :
    answersOk (pinCount evs) s.env.pins = true := by
  rcases runEvents_cases evs s with ⟨hok, -⟩ | ⟨pre, n, b, post, e, -, he, -⟩
  · exact hok
  · rw [h] at he; cases he

/-- A failure that goes up stands in the trace (R170). -/
theorem failure_mem_trace {evs : List Event} {s : State E} {e : E} (h : (runEvents evs s).2 = some e) :
    ∃ n b, .setFailed n b e ∈ (runEvents evs s).1.trace := by
  rcases runEvents_cases evs s with ⟨-, hnone⟩ | ⟨pre, n, b, post, e', -, he, hfail⟩
  · rw [h] at hnone; cases hnone
  · rw [h] at he; cases he
    exact ⟨n, b, by simp [hfail.trace]⟩

/-- The one way in which a micro-event fails (R110, R111). -/
theorem issue_failure {ev : Event} {s : State E} {e : E} (h : (issue ev s).2 = some e) :
    ∃ n b, ev = .pinSet n b ∧ (issue ev s).1.lines = s.lines.set n .x ∧ (issue ev s).1.trace = .setFailed n b e :: s.trace := by
  cases ev with
  | wait d => cases h
  | pinSet n b =>
    have herr : s.env.pins.head = .err e := by
      rw [issue_pinSet, pinSet_failure] at h
      cases hhead : s.env.pins.head <;> simp_all [faultOf]
    exact ⟨n, b, rfl, by simp [issue_pinSet, herr, levelAfter], by simp [issue_pinSet, herr, setEntry]⟩

/-- A micro-event that did not fail leaves the lines that its list would leave. -/
theorem issue_success_lines {ev : Event} {s : State E} (h : (issue ev s).2 = none) :
    (issue ev s).1.lines = linesAfter [ev] s.lines := by
  cases ev with
  | wait d => rfl
  | pinSet n b =>
    have hok : s.env.pins.head = .ok := by
      rw [issue_pinSet, pinSet_failure] at h
      cases hhead : s.env.pins.head <;> simp_all [faultOf]
    simp [issue_pinSet, hok, levelAfter, linesAfter]

/-- A micro-event is one entry of the trace (R12). -/
theorem issue_trace (ev : Event) (s : State E) : ∃ x, (issue ev s).1.trace = x :: s.trace := by
  cases ev with
  | wait d => exact ⟨_, rfl⟩
  | pinSet n b => exact ⟨_, rfl⟩

/-- No event leaves the trace. -/
theorem runEvents_trace_suffix (evs : List Event) (s : State E) : s.trace <:+ (runEvents evs s).1.trace :=
  runEvents_keeps (P := fun t => s.trace <:+ t.trace) (fun _ _ _ h => h.trans (List.suffix_cons ..))
    (fun _ _ h => h.trans (List.suffix_cons ..)) evs s List.suffix_rfl

/-! ### The three kinds of operations (R96) -/

theorem runCommand_idle (i : Instr) {s : State E} (h : s.run = .idle) : runCommand i s = .next (runAccepted i s) := by
  simp [runCommand, State.ready, h]

theorem runCommand_not_idle (i : Instr) {s : State E} (h : s.run ≠ .idle) : runCommand i s = .next s := by
  simp [runCommand, State.ready, h]

theorem requestReset_honoured {s : State E} (h : s.takesReset = true) : requestReset s = .next (runReset s) := by
  simp [requestReset, h]

theorem requestReset_not_honoured {s : State E} (h : s.takesReset = false) : requestReset s = .next s := by
  simp [requestReset, h]

/-- An operation is a command, the reset, or a list of micro-events run by itself. -/
theorem execOf_kind (i : Instr) :
    (isCommand i = true ∧ ∀ (E : Type) (s : State E), execOf i s = runCommand i s) ∨
    (i = .reset ∧ ∀ (E : Type) (s : State E), execOf i s = requestReset s) ∨
    (isCommand i = false ∧ i ≠ .reset ∧ ∃ evs, ∀ (E : Type) (s : State E), execOf i s = runEngine evs s) := by
  cases i with
  | reset => exact .inr (.inl ⟨rfl, fun _ _ => rfl⟩)
  | uina => exact .inr (.inr ⟨rfl, by simp, inactiveEvents, fun _ _ => rfl⟩)
  | uadr => exact .inr (.inr ⟨rfl, by simp, addressEvents, fun _ _ => rfl⟩)
  | uwrt => exact .inr (.inr ⟨rfl, by simp, writeEvents, fun _ _ => rfl⟩)
  | udrv v => exact .inr (.inr ⟨rfl, by simp, driveEvents v, fun _ _ => rfl⟩)
  | utxn a v => exact .inr (.inr ⟨rfl, by simp, txnEvents a v, fun _ _ => rfl⟩)
  | clr | wreg | tone | noise | mix | lvlf | lvle | envf | envs | iow => exact .inl ⟨rfl, fun _ _ => rfl⟩

/-- The same of the machine the host runs. -/
theorem exec_kind (i : Instr) :
    (isCommand i = true ∧ ∀ s : State, exec i s = runCommand i s) ∨
    (i = .reset ∧ ∀ s : State, exec i s = requestReset s) ∨
    (isCommand i = false ∧ i ≠ .reset ∧ ∃ evs, ∀ s : State, exec i s = runEngine evs s) := by
  simp only [exec_eq]
  rcases execOf_kind i with ⟨hc, h⟩ | ⟨hr, h⟩ | ⟨hc, hr, evs, h⟩
  · exact .inl ⟨hc, h _⟩
  · exact .inr (.inl ⟨hr, h _⟩)
  · exact .inr (.inr ⟨hc, hr, evs, h _⟩)

theorem isCommand_length_pos {i : Instr} (h : isCommand i = true) : 0 < (plan i).length := by
  simpa [isCommand, List.length_pos_iff] using h

/-- Every operation answers a next state: unseen, a command or a reset run to its end, or a list run by itself. -/
theorem exec_outcome (i : Instr) (s : State) :
    ((isCommand i = true → s.run ≠ .idle) ∧ exec i s = .next s) ∨
    (isCommand i = true ∧ s.run = .idle ∧ exec i s = .next (runAccepted i s)) ∨
    (i = .reset ∧ s.busy = false ∧ exec i s = .next (runReset s)) ∨
    (isCommand i = false ∧ i ≠ .reset ∧
      ∃ evs, exec i s = .next (endEngine (runEvents evs s).2 (runEvents evs s).1)) := by
  rcases exec_kind i with ⟨hc, h⟩ | ⟨rfl, h⟩ | ⟨hc, hr, evs, h⟩
  · rw [h]
    by_cases hrun : s.run = .idle
    · exact .inr (.inl ⟨hc, hrun, runCommand_idle i hrun⟩)
    · exact .inl ⟨fun _ => hrun, runCommand_not_idle i hrun⟩
  · rw [h]
    cases htakes : s.takesReset
    · exact .inl ⟨fun hc => absurd hc (by decide), requestReset_not_honoured htakes⟩
    · exact .inr (.inr (.inl ⟨rfl, by simpa [State.takesReset] using htakes, requestReset_honoured htakes⟩))
  · exact .inr (.inr (.inr ⟨hc, hr, evs, h s⟩))

/-- Settles O33: a word that is not seen (R90). -/
theorem commandNotSeenUnlessIdle : Obligations.CommandNotSeenUnlessIdle := by
  intro i s hc hrun
  rcases exec_kind i with ⟨-, h⟩ | ⟨rfl, -⟩ | ⟨hc', -⟩
  · rw [h, runCommand_not_idle i hrun]
  · exact absurd hc (by decide)
  · rw [hc] at hc'; cases hc'

/-- Settles O60: the frame of a list of micro-events, and what the end of each kind of operation writes. -/
theorem frameOfEveryOperation : Obligations.FrameOfEveryOperation := by
  intro i s
  rcases exec_outcome i s with ⟨hunseen, h⟩ | ⟨hc, -, h⟩ | ⟨rfl, -, h⟩ | ⟨hc, hr, evs, h⟩
  · exact ⟨s, h, rfl, rfl, fun _ => rfl, fun hc hidle => absurd hidle (hunseen hc),
      fun _ _ => ⟨rfl, rfl, rfl, rfl, rfl, rfl⟩⟩
  · have hbus := runEvents_only_bus (planEvents (plan i)) (accept i s)
    exact ⟨_, h, hbus.addrDecode, hbus.agenda, fun _ => runEvents_engineReturn _ _, fun _ _ => ⟨rfl, rfl⟩,
      fun hc' => absurd hc (by simp [hc'])⟩
  · have hbus := runEvents_only_bus inactiveEvents (beginReset s)
    exact ⟨_, h, hbus.addrDecode, hbus.agenda, fun _ => runEvents_engineReturn _ _, fun hc => absurd hc (by decide),
      fun _ hr => absurd rfl hr⟩
  · have hbus := runEvents_only_bus evs s
    exact ⟨_, h, hbus.addrDecode, hbus.agenda, fun hcr => by simp [hc, hr] at hcr,
      fun hc' => absurd hc' (by simp [hc]),
      fun _ _ => ⟨hbus.run, hbus.cmd, hbus.pos, hbus.result, hbus.addrDecode, hbus.agenda⟩⟩

end Sys2Proof.Proofs
end

section
/-! PROOFS. The step table of a transaction (40_bus_engine.md R125): which micro-event sets which line, and the levels that stand
between them. -/

namespace Sys2Proof.Proofs

open Sys2Proof
open Sys2Proof.Config
open Sys2Proof.Machine
open Sys2Proof.Safety
open Sys2Proof.Laws

variable {E : Type}

/-- Which steps set a line, and to what: the column of a line in the step table. -/
def column (n : Line) (evs : List Event) : List (Option Bool) := evs.map fun ev => lastSet n [ev]

theorem column_bdir (a v : Byte) : column .bdir (txnEvents a v) = (List.range 28).map fun j =>
    if j = 0 ∨ j = 22 then some true else if j = 11 ∨ j = 25 then some false else none := rfl

theorem column_bc1 (a v : Byte) : column .bc1 (txnEvents a v) = (List.range 28).map fun j =>
    if j = 1 then some true else if j = 12 ∨ j = 23 ∨ j = 26 then some false else none := rfl

theorem column_data (a v : Byte) {i : Nat} (hi : i < 8) : column (dataLine i) (txnEvents a v) = (List.range 28).map fun j =>
    if j = i + 2 then some (a.getLsbD i) else if j = i + 14 then some (v.getLsbD i) else none := by
  interval_cases i <;> rfl

/-- What step `j` sets a line to, by the line's column. -/
theorem lastSet_of_column {n : Line} {evs : List Event} {f : Nat → Option Bool} {c : Nat}
    (hcolumn : column n evs = (List.range c).map f) {j : Nat} {ev : Event} (hev : evs[j]? = some ev) : lastSet n [ev] = f j := by
  have hat := congrArg (·[j]?) hcolumn
  obtain ⟨hj, rfl⟩ := List.getElem?_eq_some_iff.mp hev
  have hlen : c = evs.length := by simpa [column] using (congrArg List.length hcolumn).symm
  simpa [column, List.getElem?_range, hlen, hj] using hat

/-- A line after step `j`, by its column. -/
theorem get_after_step {n : Line} {evs : List Event} {f : Nat → Option Bool} {c : Nat}
    (hcolumn : column n evs = (List.range c).map f) {j : Nat} {ev : Event} (hev : evs[j]? = some ev) (l : Lines) :
    (linesAfter [ev] l).get n = ((f j).map Level.ofBool).getD (l.get n) := by
  rw [get_linesAfter, lastSet_of_column hcolumn hev]

/-- The levels that a data line has after step `j` from those it has before. -/
theorem txn_get_data (a v : Byte) {i j : Nat} {ev : Event} (hi : i < 8) (hev : (txnEvents a v)[j]? = some ev) (l : Lines) :
    (linesAfter [ev] l).get (dataLine i) =
      if j = i + 2 then Level.ofBool (a.getLsbD i) else if j = i + 14 then Level.ofBool (v.getLsbD i) else l.get (dataLine i) := by
  rw [get_after_step (column_data a v hi) hev]
  repeat' split
  all_goals rfl

/-- The levels that the control lines have after step `j` from those they have before. -/
theorem txn_get_bdir {a v : Byte} {j : Nat} {ev : Event} (hev : (txnEvents a v)[j]? = some ev) (l : Lines) :
    (linesAfter [ev] l).bdir = if j = 0 ∨ j = 22 then .high else if j = 11 ∨ j = 25 then .low else l.bdir := by
  have h := get_after_step (column_bdir a v) hev l
  rw [← Lines.get, h]
  repeat' split
  all_goals rfl

theorem txn_get_bc1 {a v : Byte} {j : Nat} {ev : Event} (hev : (txnEvents a v)[j]? = some ev) (l : Lines) :
    (linesAfter [ev] l).bc1 = if j = 1 then .high else if j = 12 ∨ j = 23 ∨ j = 26 then .low else l.bc1 := by
  have h := get_after_step (column_bc1 a v) hev l
  rw [← Lines.get, h]
  repeat' split
  all_goals rfl

/-- The data levels of the step table go from row to row (R125, R126). -/
theorem dataAt_succ {a v : Byte} {j : Nat} {ev : Event} (hev : (txnEvents a v)[j]? = some ev) {l : Lines} (h : DataAt a v j l) :
    DataAt a v (j + 1) (linesAfter [ev] l) := by
  intro i hi
  obtain ⟨haddress, hvalue⟩ := h i hi
  rw [txn_get_data a v hi hev]
  refine ⟨fun hj => ?_, fun hj => ?_⟩
  · by_cases h2 : j = i + 2
    · rw [if_pos h2]
    · rw [if_neg h2, if_neg (by omega)]
      exact haddress (by omega)
  · by_cases h14 : j = i + 14
    · rw [if_neg (by omega), if_pos h14]
    · rw [if_neg (by omega), if_neg h14]
      exact hvalue (by omega)

theorem dataAt_zero (a v : Byte) (l : Lines) : DataAt a v 0 l := fun _ _ => ⟨by omega, by omega⟩

/-- The control levels of the step table go from row to row (R125). -/
theorem controlAt_succ {a v : Byte} {j : Nat} {ev : Event} (hev : (txnEvents a v)[j]? = some ev) {l : Lines} (h : ControlAt j l) :
    ControlAt (j + 1) (linesAfter [ev] l) := by
  have hj : j < 28 := (List.getElem?_eq_some_iff.mp hev).1
  have hbdir := txn_get_bdir hev l
  have hbc1 := txn_get_bc1 hev l
  generalize linesAfter [ev] l = l' at hbdir hbc1
  clear hev
  interval_cases j <;> simp_all [ControlAt]

theorem controlAt_zero (l : Lines) : ControlAt 0 l := by
  simp [ControlAt]

/-- The first `j + 1` events are the first `j` and event `j`. -/
theorem linesAfter_take_succ (a v : Byte) {j : Nat} (hj : j < 28) (l : Lines) : ∃ ev, (txnEvents a v)[j]? = some ev ∧
    linesAfter ((txnEvents a v).take (j + 1)) l = linesAfter [ev] (linesAfter ((txnEvents a v).take j) l) := by
  have hlt : j < (txnEvents a v).length := hj
  exact ⟨_, List.getElem?_eq_getElem hlt, by rw [List.take_succ_eq_append_getElem hlt, linesAfter_append]⟩

/-- The data levels after the first `j` events, from any start (R125, R126). -/
theorem get_data_after_take (a v : Byte) {i : Nat} (hi : i < 8) {j : Nat} (hj : j ≤ 28) (l : Lines) :
    (linesAfter ((txnEvents a v).take j) l).get (dataLine i) =
      if j ≤ i + 2 then l.get (dataLine i)
      else if j ≤ i + 14 then Level.ofBool (a.getLsbD i)
      else Level.ofBool (v.getLsbD i) := by
  induction j with
  | zero => simp [linesAfter]
  | succ j ih =>
    obtain ⟨ev, hev, hlines⟩ := linesAfter_take_succ a v hj l
    rw [hlines, txn_get_data a v hi hev, ih (by omega)]
    split_ifs
    all_goals first | rfl | omega

/-- The control levels after the first `j` events, from a start in `Inactive` (R125). -/
theorem control_after_take (a v : Byte) {j : Nat} (hj : j ≤ 28) {l : Lines} (h : l.mode = .inactive) :
    ((linesAfter ((txnEvents a v).take j) l).bdir = if (1 ≤ j ∧ j ≤ 11) ∨ (23 ≤ j ∧ j ≤ 25) then .high else .low) ∧
    ((linesAfter ((txnEvents a v).take j) l).bc1 = if 2 ≤ j ∧ j ≤ 12 then .high else .low) := by
  induction j with
  | zero => cases hbdir : l.bdir <;> cases hbc1 : l.bc1 <;> simp_all [linesAfter, Lines.mode, busMode]
  | succ j ih =>
    obtain ⟨ev, hev, hlines⟩ := linesAfter_take_succ a v hj l
    obtain ⟨ihbdir, ihbc1⟩ := ih (by omega)
    rw [hlines, txn_get_bdir hev, txn_get_bc1 hev, ihbdir, ihbc1]
    constructor
    all_goals split_ifs
    all_goals first | rfl | omega

/-- The answers that a start of a list takes. -/
theorem pinCount_take_le (evs : List Event) (j : Nat) : pinCount (evs.take j) ≤ pinCount evs := by
  have h := pinCount_append (evs.take j) (evs.drop j)
  rw [List.take_append_drop] at h
  omega

/-- Row `j` of the step table: what the first `j` events of a transaction leave, all answered Ok (R125). -/
theorem row_of_step_table (a v : Byte) (s : State E) {j : Nat} (hj : j ≤ 28) (hmode : s.mode = .inactive)
    (hpins : answersOk 24 s.env.pins = true) :
    let t := (runEvents ((txnEvents a v).take j) s).1
    t.trace = doneEntries ((txnEvents a v).take j) ++ s.trace ∧
      (t.lines.bdir = if (1 ≤ j ∧ j ≤ 11) ∨ (23 ≤ j ∧ j ≤ 25) then .high else .low) ∧
      (t.lines.bc1 = if 2 ≤ j ∧ j ≤ 12 then .high else .low) ∧
      (∀ i, i < 8 → t.lines.get (dataLine i) =
        if j ≤ i + 2 then s.lines.get (dataLine i)
        else if j ≤ i + 14 then Level.ofBool (a.getLsbD i)
        else Level.ofBool (v.getLsbD i)) := by
  obtain ⟨-, hlines, htrace, -⟩ := runEvents_ok _ s (answersOk_mono (pinCount_take_le (txnEvents a v) j) hpins)
  obtain ⟨hbdir, hbc1⟩ := control_after_take a v hj hmode
  dsimp only
  rw [hlines]
  exact ⟨htrace, hbdir, hbc1, fun i hi => get_data_after_take a v hi hj s.lines⟩

/-- Settles O14: the table is the transaction by its definition, and each row has its lemma. -/
theorem stepTable : Obligations.StepTable := fun a v =>
  ⟨rfl, fun s _ hj hmode hpins => row_of_step_table a v s hj hmode hpins⟩

end Sys2Proof.Proofs
end

section
/-! PROOFS. Micro-events and the four short micro-operations (40_bus_engine.md R110 to R117): lines, trace and return, the chip, and
the modes passed through. -/

namespace Sys2Proof.Proofs

open Sys2Proof
open Sys2Proof.Config
open Sys2Proof.Machine
open Sys2Proof.Safety
open Sys2Proof.Laws

variable {E : Type}

/-- Settles O5: `busMode` on each of the nine pairs. -/
theorem busModeOfControlLevels : Obligations.BusModeOfControlLevels := by
  intro l
  cases hbdir : l.bdir <;> cases hbc1 : l.bc1 <;> simp [Lines.mode, hbdir, hbc1, busMode]

/-- A control line that failed leaves the mode unknown (R24, R110). -/
theorem mode_set_control_x {n : Line} (hn : n.isControl = true) (l : Lines) : (l.set n .x).mode = .unknown := by
  cases n with
  | bdir => rfl
  | bc1 => cases hbdir : l.bdir <;> simp [Lines.mode, Lines.set, busMode, hbdir]
  | d0 | d1 | d2 | d3 | d4 | d5 | d6 | d7 => cases hn

/-- Settles O6: the fields of `pinSet`, and the line read after it is set. -/
theorem pinSetWritesItsLineOnly : Obligations.PinSetWritesItsLineOnly := by
  intro n b s
  simp only [issue_pinSet]
  refine ⟨fun hok => ?_, fun e herr => ?_, fun m hm => ?_, fun hn => (pinSet_data_chip n b s hn).1, pinSet_pins n b s,
    issue_only_bus (.pinSet n b) s⟩
  · simp [hok, faultOf, get_set, levelAfter, setEntry]
  · simp [herr, faultOf, get_set, levelAfter, setEntry]
  · rw [pinSet_lines, get_set, if_neg hm.symm]

/-- Settles O7: `wait` by its definition. -/
theorem waitWritesNoState : Obligations.WaitWritesNoState := fun d s => issue_wait d s

/-! ### Lists run by themselves -/

/-- What a list run by itself leaves when it fails at its first failing pin set: the state of that failure, returned. -/
theorem runEngine_fail {pre post : List Event} {n : Line} {b : Bool} {s : State E} {e : E}
    (hok : answersOk (pinCount pre) s.env.pins = true) (herr : (s.env.pins.drop (pinCount pre)).head = .err e) :
    runEngine (pre ++ .pinSet n b :: post) s = .next (endEngine (some e) (pinSet n b (runEvents pre s).1).1) := by
  simp only [runEngine, runEvents_fail pre n b post s e hok herr]

theorem runEngine_ok {evs : List Event} {s : State E} (hok : answersOk (pinCount evs) s.env.pins = true) :
    runEngine evs s = .next (endEngine none (runEvents evs s).1) := by
  simp only [runEngine, (runEvents_ok evs s hok).1]

theorem onlyBusChanged_endEngine {s t : State E} (h : OnlyBusChanged s t) (f : Option E) : OnlyBusChanged s (endEngine f t) :=
  ⟨h.run, h.cmd, h.pos, h.result, h.addrDecode, h.agenda⟩

theorem onlyBusChanged_pinSet {s t : State E} (h : OnlyBusChanged s t) (n : Line) (b : Bool) :
    OnlyBusChanged s (pinSet n b t).1 :=
  ⟨h.run, h.cmd, h.pos, h.result, h.addrDecode, h.agenda⟩

/-- What a failing list run by itself leaves besides the lines, the trace and the answers. -/
theorem onlyBusChanged_fail (pre : List Event) (n : Line) (b : Bool) (f : Option E) (s : State E) :
    OnlyBusChanged s (endEngine f (pinSet n b (runEvents pre s).1).1) :=
  onlyBusChanged_endEngine (onlyBusChanged_pinSet (runEvents_only_bus pre s) n b) f

/-! ### The mode entries -/

theorem answersOk_two {p : Script (Answer E)} (h : answersOk 2 p = true) : p.head = .ok ∧ (p.drop 1).head = .ok := by
  simpa [answersOk, isOk_iff, drop_succ] using h

theorem answersOk_one {p : Script (Answer E)} (h : p.head = .ok) : answersOk 1 p = true := by
  simp [answersOk, h]

/-- A set of BDIR and then of BC1, run by itself, is a mode entry (R113 to R115). -/
theorem modeEntry_of_exec {i : Instr} {x y : Bool} {m : BusMode}
    (hexec : ∀ s : State, exec i s = runEngine [.pinSet .bdir x, .pinSet .bc1 y] s)
    (hmode : busMode (Level.ofBool x) (Level.ofBool y) = m) : ModeEntry i x y m := by
  intro s
  rw [hexec]
  refine ⟨fun hok => ?_, fun e herr => ?_, fun e hfirst herr => ?_⟩
  · obtain ⟨-, hlines, htrace, hpins⟩ := runEvents_ok [.pinSet .bdir x, .pinSet .bc1 y] s hok
    refine ⟨_, runEngine_ok hok, hlines, ?_, htrace, rfl, hpins, onlyBusChanged_endEngine (runEvents_only_bus _ s) _⟩
    rw [State.mode, endEngine_lines, hlines]
    exact hmode
  · have hfail := pinSet_failedAt (pre := []) .bdir x rfl herr
    have hlines : (pinSet .bdir x s).1.lines = s.lines.set .bdir .x := hfail.lines
    exact ⟨_, runEngine_fail (pre := []) rfl herr, hlines, (congrArg Lines.bc1 hlines).trans rfl, hfail.trace, rfl, hfail.pins,
      onlyBusChanged_fail [] .bdir x _ s⟩
  · have hone : answersOk (pinCount [.pinSet .bdir x]) s.env.pins = true := answersOk_one hfirst
    have hfail := pinSet_failedAt .bc1 y hone herr
    exact ⟨_, runEngine_fail (pre := [.pinSet .bdir x]) hone herr, hfail.lines, hfail.trace, rfl, hfail.pins,
      onlyBusChanged_fail [.pinSet .bdir x] .bc1 y _ s⟩

theorem exec_uina (s : State) : exec .uina s = runEngine inactiveEvents s := rfl
theorem exec_uadr (s : State) : exec .uadr s = runEngine addressEvents s := rfl
theorem exec_uwrt (s : State) : exec .uwrt s = runEngine writeEvents s := rfl

/-- Settles O8: the entry with both levels low. -/
theorem enterInactiveMode : Obligations.EnterInactiveMode := modeEntry_of_exec exec_uina rfl

/-- Settles O9: the entry with both levels high. -/
theorem enterAddressMode : Obligations.EnterAddressMode := modeEntry_of_exec exec_uadr rfl

/-- Settles O10: the entry with BDIR high and BC1 low. -/
theorem enterWriteMode : Obligations.EnterWriteMode := modeEntry_of_exec exec_uwrt rfl

/-! ### The mode entries on the chip -/

/-- What leaving a mode by the first set of `UINA` makes of the chip (R68, R69). -/
def chipAfterLeaving (s : State E) : Chip :=
  if s.mode = .addressLatch ∧ responds s = true then { s.chip with al := s.lines.dataByte }
  else if s.mode = .write ∧ responds s = true then commit s.env.addrDecode s.chip s.lines.dataByte
  else s.chip

/-- BDIR set low: the chip is left as `UINA` leaves it, whatever BC1 is answered (R67 to R70). -/
theorem bdir_low_chip {s : State E} (hok : s.env.pins.head = .ok) : (pinSet .bdir false s).1.chip = chipAfterLeaving s := by
  rw [pinSet_control_chip _ _ _ rfl, hok]
  rcases h1 : s.lines.bdir <;> rcases h2 : s.lines.bc1 <;> rcases h3 : responds s <;>
    simp [chipAfterLeaving, chipAfter, Lines.mode, State.mode, busMode, Lines.set, levelAfter, h1, h2, h3, isExit, Level.ofBool]
  all_goals rfl

/-- An entry whose second set fails: an unknown BC1 with BDIR low does nothing, with BDIR high it loses everything (R70). -/
theorem entry_second_fails {x y : Bool} {s : State E} {e : E} (hfirst : s.env.pins.head = .ok)
    (herr : (s.env.pins.drop 1).head = .err e) :
    (pinSet .bc1 y (pinSet .bdir x s).1).1.chip = if x = true then Chip.lost else chipAfterLeaving s := by
  have herr' : (pinSet .bdir x s).1.env.pins.head = .err e := herr
  cases x with
  | true => exact bc1_fail_high y _ e herr' (by simp [hfirst, levelAfter, Lines.set, Level.ofBool])
  | false => exact (bc1_fail_low y _ e herr' (by simp [hfirst, levelAfter, Lines.set, Level.ofBool])).trans (bdir_low_chip hfirst)

/-- The levels of the three mode entries (R113 to R115). -/
theorem exec_entry {i : Instr} (hi : i = .uina ∨ i = .uadr ∨ i = .uwrt) :
    ∃ x y, (x = true ↔ i ≠ .uina) ∧ ∀ s : State, exec i s = runEngine [.pinSet .bdir x, .pinSet .bc1 y] s := by
  rcases hi with rfl | rfl | rfl
  · exact ⟨false, false, by simp, exec_uina⟩
  · exact ⟨true, true, by simp, exec_uadr⟩
  · exact ⟨true, false, by simp, exec_uwrt⟩

/-- Settles O12: two sets answered Ok by the model's laws; the failures by what a failed control line does. -/
theorem modeEntriesOnTheChip : Obligations.ModeEntriesOnTheChip := by
  intro s
  refine ⟨fun hok => ⟨?_, ?_, ?_⟩, fun i e hi herr => ?_, fun i e hi hfirst herr => ?_⟩
  · exact ⟨_, runEngine_ok (evs := inactiveEvents) hok, inactive_chip s hok⟩
  · exact ⟨_, runEngine_ok (evs := addressEvents) hok, address_chip s hok⟩
  · exact ⟨_, runEngine_ok (evs := writeEvents) hok, write_chip s hok⟩
  · obtain ⟨x, y, -, hexec⟩ := exec_entry hi
    exact ⟨_, (hexec s).trans (runEngine_fail (pre := []) rfl herr), bdir_fail x s e herr⟩
  · obtain ⟨x, y, hx, hexec⟩ := exec_entry hi
    have hone : answersOk (pinCount [.pinSet .bdir x]) s.env.pins = true := answersOk_one hfirst
    refine ⟨_, (hexec s).trans (runEngine_fail (pre := [.pinSet .bdir x]) hone herr), ?_⟩
    rw [endEngine_chip, runEvents_set_ok hfirst, runEvents_nil, entry_second_fails hfirst herr]
    by_cases hu : i = .uina
    · rw [if_pos hu, if_neg (by simp [hx, hu])]
      rfl
    · rw [if_neg hu, if_pos (hx.mpr hu)]

/-! ### The modes passed through -/

theorem runEvents_ok_mode {evs : List Event} {s : State E} (hok : answersOk (pinCount evs) s.env.pins = true) :
    (runEvents evs s).1.mode = (linesAfter evs s.lines).mode := by
  rw [State.mode, (runEvents_ok evs s hok).2.1]

/-- Settles O13: the two levels after each set, from each of the nine pairs of levels. -/
theorem modesPassedThrough : Obligations.ModesPassedThrough := by
  intro s hok
  have hone : answersOk 1 s.env.pins = true := answersOk_mono (by decide) hok
  have hmode : s.mode = busMode s.lines.bdir s.lines.bc1 := rfl
  refine ⟨fun m hm => ?_, fun m hm => ?_, fun m hm => ?_⟩ <;> subst hm
  · rw [runEvents_ok_mode (evs := inactiveEvents.take 1) hone, runEvents_ok_mode (evs := inactiveEvents) hok, hmode]
    refine ⟨?_, rfl⟩
    change busMode .low s.lines.bc1 = _
    cases s.lines.bdir <;> cases s.lines.bc1 <;> rfl
  · rw [runEvents_ok_mode (evs := addressEvents.take 1) hone, runEvents_ok_mode (evs := addressEvents) hok, hmode]
    refine ⟨?_, rfl⟩
    change busMode .high s.lines.bc1 = _
    cases s.lines.bdir <;> cases s.lines.bc1 <;> rfl
  · rw [runEvents_ok_mode (evs := writeEvents.take 1) hone, runEvents_ok_mode (evs := writeEvents) hok, hmode]
    refine ⟨?_, rfl⟩
    change busMode .high s.lines.bc1 = _
    cases s.lines.bdir <;> cases s.lines.bc1 <;> rfl

/-! ### A byte driven -/

/-- `drive_byte` sets data line `i` at place `i` (R116). -/
theorem drive_split (v : Byte) {i : Nat} (hi : i < 8) :
    driveEvents v = (driveEvents v).take i ++ .pinSet (dataLine i) (v.getLsbD i) :: (driveEvents v).drop (i + 1) := by
  interval_cases i <;> rfl

theorem pinCount_drive_take (v : Byte) {i : Nat} (hi : i ≤ 8) : pinCount ((driveEvents v).take i) = i := by
  interval_cases i <;> rfl

/-- The last level of data line `j` among the first `i` sets. -/
theorem lastSet_drive_take (v : Byte) {i j : Nat} (hi : i ≤ 8) (hj : j < 8) :
    lastSet (dataLine j) ((driveEvents v).take i) = if j < i then some (v.getLsbD j) else none := by
  interval_cases i <;> interval_cases j <;> rfl

/-- A data line after the first `i` sets (R116). -/
theorem get_drive_take (v : Byte) {i j : Nat} (hi : i ≤ 8) (hj : j < 8) (l : Lines) :
    (linesAfter ((driveEvents v).take i) l).get (dataLine j) =
      if j < i then Level.ofBool (v.getLsbD j) else l.get (dataLine j) := by
  rw [get_linesAfter, lastSet_drive_take v hi hj]
  split <;> rfl

theorem dataLine_inj {i j : Nat} (hi : i < 8) (hj : j < 8) : dataLine i = dataLine j ↔ i = j := by
  have htable : ∀ i < 8, ∀ j < 8, (dataLine i = dataLine j ↔ i = j) := by decide
  exact htable i hi j hj

theorem dataLine_isControl (i : Nat) : (dataLine i).isControl = false := by
  unfold dataLine
  split <;> rfl

/-- Data lines and waits leave the control levels. -/
theorem linesAfter_data_control {evs : List Event} (h : ∀ n b, Event.pinSet n b ∈ evs → n.isControl = false) (l : Lines) :
    (linesAfter evs l).bdir = l.bdir ∧ (linesAfter evs l).bc1 = l.bc1 := by
  induction evs generalizing l with
  | nil => exact ⟨rfl, rfl⟩
  | cons ev evs ih =>
    have ih' := ih fun n b hm => h n b (List.mem_cons_of_mem _ hm)
    cases ev with
    | wait d => exact ih' l
    | pinSet n b =>
      obtain ⟨hbdir, hbc1⟩ := set_data_control l n (Level.ofBool b) (h n b (by simp))
      obtain ⟨hbdir', hbc1'⟩ := ih' (l.set n (Level.ofBool b))
      exact ⟨hbdir'.trans hbdir, hbc1'.trans hbc1⟩

/-- The data lines when the set of bit `i` fails: new below, X at `i`, old above (R116). -/
theorem get_drive_fail (v : Byte) {i j : Nat} (hi : i < 8) (hj : j < 8) (l : Lines) :
    ((linesAfter ((driveEvents v).take i) l).set (dataLine i) .x).get (dataLine j) =
      if i = j then .x else if j < i then Level.ofBool (v.getLsbD j) else l.get (dataLine j) := by
  rw [get_set, get_drive_take v hi.le hj]
  simp only [dataLine_inj hi hj]

theorem drive_take_is_data (v : Byte) (i : Nat) : ∀ n b, Event.pinSet n b ∈ (driveEvents v).take i → n.isControl = false :=
  fun n b hm => drive_is_data v n b (List.mem_of_mem_take hm)

/-- A failing set of a data line leaves the control levels too. -/
theorem drive_fail_control (v : Byte) (i : Nat) (l : Lines) :
    ((linesAfter ((driveEvents v).take i) l).set (dataLine i) .x).bdir = l.bdir ∧
      ((linesAfter ((driveEvents v).take i) l).set (dataLine i) .x).bc1 = l.bc1 := by
  obtain ⟨hbdir, hbc1⟩ := set_data_control (linesAfter ((driveEvents v).take i) l) (dataLine i) .x (dataLine_isControl i)
  obtain ⟨hbdir', hbc1'⟩ := linesAfter_data_control (drive_take_is_data v i) l
  exact ⟨hbdir.trans hbdir', hbc1.trans hbc1'⟩

/-- The observer takes no notice of a byte that fails to be driven (R67). -/
theorem drive_fail_chip (v : Byte) (i : Nat) (s : State E) :
    let t := (pinSet (dataLine i) (v.getLsbD i) (runEvents ((driveEvents v).take i) s).1).1
    t.chip = s.chip ∧ t.env.transients = s.env.transients := by
  obtain ⟨hchip, htransients⟩ := pinSet_data_chip (dataLine i) (v.getLsbD i) (runEvents ((driveEvents v).take i) s).1
    (dataLine_isControl i)
  obtain ⟨hchip', htransients'⟩ := runEvents_data_chip _ s (drive_take_is_data v i)
  exact ⟨hchip.trans hchip', htransients.trans htransients'⟩

/-- Settles O11: the eight sets in order, all of them, or those before the first that fails. -/
theorem driveByte : Obligations.DriveByte := by
  intro v s
  refine ⟨rfl, fun hok => ?_, fun i e hi hok herr => ?_⟩
  · obtain ⟨-, hlines, htrace, hpins⟩ := runEvents_ok (driveEvents v) s hok
    obtain ⟨hchip, htransients⟩ := runEvents_data_chip (driveEvents v) s (drive_is_data v)
    have hget : ∀ j, j < 8 → (linesAfter (driveEvents v) s.lines).get (dataLine j) = Level.ofBool (v.getLsbD j) := fun j hj =>
      (get_drive_take v (le_refl 8) hj s.lines).trans (if_pos hj)
    refine ⟨_, runEngine_ok (evs := driveEvents v) hok, ?_, ?_, ?_, ?_, htrace, rfl, hchip, hpins, htransients,
      onlyBusChanged_endEngine (runEvents_only_bus _ s) _⟩ <;> rw [endEngine_lines, hlines]
    · exact drive_dataByte v s.lines
    · exact hget
    · exact drive_bdir v s.lines
    · exact drive_bc1 v s.lines
  · have hcount := pinCount_drive_take v hi.le
    rw [← hcount] at hok herr
    have hexec := runEngine_fail (n := dataLine i) (b := v.getLsbD i) (post := (driveEvents v).drop (i + 1)) hok herr
    rw [← drive_split v hi] at hexec
    have hfail := pinSet_failedAt (dataLine i) (v.getLsbD i) hok herr
    obtain ⟨hchip, htransients⟩ := drive_fail_chip v i s
    have hget : ∀ j, j < 8 → _ := fun j hj => get_drive_fail v hi hj s.lines
    obtain ⟨hbdir, hbc1⟩ := drive_fail_control v i s.lines
    rw [← hfail.lines] at hbdir hbc1
    simp only [← hfail.lines] at hget
    refine ⟨_, hexec, fun j hj => ?_, (hget i hi).trans (if_pos rfl), fun j hij hj => ?_, hbdir, hbc1, hfail.trace, rfl, hchip, ?_,
      htransients, onlyBusChanged_fail _ _ _ _ s⟩
    · rw [endEngine_lines, hget j (by omega), if_neg (by omega), if_pos hj]
    · rw [endEngine_lines, hget j hj, if_neg (by omega), if_neg (by omega)]
    · rw [endEngine_env, hfail.pins, hcount]

end Sys2Proof.Proofs
end

section
/-! PROOFS. A transaction run by itself (40_bus_engine.md section 3): answered Ok from any start, and failing at each step of its table
(R128). -/

namespace Sys2Proof.Proofs

open Sys2Proof
open Sys2Proof.Config
open Sys2Proof.Machine
open Sys2Proof.Safety
open Sys2Proof.Laws

variable {E : Type}

/-! ### Answered Ok -/

theorem exec_utxn_ok (a v : Byte) {s : State} (h : answersOk 24 s.env.pins = true) :
    exec (.utxn a v) s = .next (endEngine none (runEvents (txnEvents a v) s).1) :=
  runEngine_ok (evs := txnEvents a v) h

theorem txn_lines (a v : Byte) {s : State E} (h : answersOk 24 s.env.pins = true) :
    (runEvents (txnEvents a v) s).1.lines = quietLines v := by
  obtain ⟨-, hlines, -⟩ := runEvents_ok (txnEvents a v) s h
  rw [hlines, linesAfter_txn]

/-- Settles O15: a list answered Ok, and the model's law of a transaction's chip. -/
theorem transactionCompletes : Obligations.TransactionCompletes := by
  intro a v s h
  obtain ⟨-, -, htrace, hpins⟩ := runEvents_ok (txnEvents a v) s h
  exact ⟨_, exec_utxn_ok a v h, txn_lines a v h, rfl, htrace, hpins, txn_transients a v s h,
    onlyBusChanged_endEngine (runEvents_only_bus _ s) _, txn_chip a v s h⟩

/-- Settles O16: in sync, step 1 changes nothing, and what follows latches and commits one pair. -/
theorem goodTransactionWritesOneRegister : Obligations.GoodTransactionWritesOneRegister := by
  intro a v s h hknown hsync ha
  have hchip : (runEvents (txnEvents a v) s).1.chip = chipWrite s.env.addrDecode s.chip (a, v) := by
    rw [txn_chip a v s h, chipAfterEntry_inSync s hknown hsync]; rfl
  have hregs := chipWrite_regs s.env.addrDecode s.chip (a, v) ha
  refine ⟨_, exec_utxn_ok a v h, ?_, ?_, fun r hr => ?_, txn_lines a v h, rfl,
    onlyBusChanged_endEngine (runEvents_only_bus _ s) _⟩
  · rw [endEngine_chip, hchip, chipWrite_al]
  · rw [endEngine_chip, hchip, hregs, read_write_same]
  · rw [endEngine_chip, hchip, hregs, read_write_other _ _ hr]

/-- Settles O17: the byte that stands is the one committed last. -/
theorem goodTransactionLeavesInSync : Obligations.GoodTransactionLeavesInSync := by
  intro a v s h
  obtain ⟨hsync, -, hmode⟩ := txn_inSync a v s h
  exact ⟨_, exec_utxn_ok a v h, hsync, hmode⟩

/-! ### Failing at a step -/

/-- A list cut at one of its members. -/
theorem split_at_member {α : Type} {xs : List α} {j : Nat} {x : α} (h : xs[j]? = some x) :
    xs = xs.take j ++ x :: xs.drop (j + 1) := by
  obtain ⟨hj, rfl⟩ := List.getElem?_eq_some_iff.mp h
  rw [List.cons_getElem_drop_succ, List.take_append_drop]

theorem lastSet_pinSet (n m : Line) (b : Bool) : lastSet n [.pinSet m b] = if m = n then some b else none := rfl

/-- The steps that set BDIR, and those that set BC1 (R125). -/
theorem txn_sets_bdir {a v : Byte} {j : Nat} {n : Line} {b : Bool} (h : (txnEvents a v)[j]? = some (.pinSet n b)) :
    n = .bdir ↔ (j = 0 ∨ j = 22) ∨ j = 11 ∨ j = 25 := by
  have hset := lastSet_of_column (column_bdir a v) h
  rw [lastSet_pinSet] at hset
  split_ifs at hset <;> simp_all

theorem txn_sets_bc1 {a v : Byte} {j : Nat} {n : Line} {b : Bool} (h : (txnEvents a v)[j]? = some (.pinSet n b)) :
    n = .bc1 ↔ j = 1 ∨ j = 12 ∨ j = 23 ∨ j = 26 := by
  have hset := lastSet_of_column (column_bc1 a v) h
  rw [lastSet_pinSet] at hset
  split_ifs at hset <;> simp_all

theorem isControl_iff (n : Line) : n.isControl = true ↔ n = .bdir ∨ n = .bc1 := by
  cases n <;> simp [Line.isControl]

/-- The control lines of a transaction are set at eight steps. -/
theorem txn_isControl {a v : Byte} {j : Nat} {n : Line} {b : Bool} (h : (txnEvents a v)[j]? = some (.pinSet n b)) :
    n.isControl = true ↔ j ∈ [0, 1, 11, 12, 22, 23, 25, 26] := by
  rw [isControl_iff, txn_sets_bdir h, txn_sets_bc1 h]
  simp only [List.mem_cons, List.not_mem_nil, or_false]
  omega

theorem known_of_inactive {l : Lines} (h : l.mode = .inactive) : ControlKnown l := by
  constructor <;> intro hx <;> cases hbdir : l.bdir <;> simp_all [Lines.mode, busMode]

/-- The mode in which a pin set that fails at step `j` leaves a transaction from `Inactive` (the mode column of R128). -/
theorem txn_fail_mode {a v : Byte} {j : Nat} {n : Line} {b : Bool} (hev : (txnEvents a v)[j]? = some (.pinSet n b)) {l : Lines}
    (hmode : l.mode = .inactive) :
    let l' := (linesAfter ((txnEvents a v).take j) l).set n .x
    (j ∈ [0, 1, 11, 12, 22, 23, 25, 26] → l'.mode = .unknown) ∧
      (2 ≤ j ∧ j ≤ 9 → l'.mode = .addressLatch) ∧
      (14 ≤ j ∧ j ≤ 21 → l'.mode = .inactive) ∧
      (j = 12 ∨ j = 26 → l'.bdir = .low) := by
  intro l'
  obtain ⟨hbdir, hbc1⟩ := control_after_take a v (List.getElem?_eq_some_iff.mp hev).1.le hmode
  have hdata : j ∉ [0, 1, 11, 12, 22, 23, 25, 26] → l'.mode = busMode
      (if (1 ≤ j ∧ j ≤ 11) ∨ (23 ≤ j ∧ j ≤ 25) then .high else .low) (if 2 ≤ j ∧ j ≤ 12 then .high else .low) := fun hj => by
    have hn : n.isControl = false := by simpa only [← txn_isControl hev, Bool.not_eq_true] using hj
    obtain ⟨hb, hc⟩ := set_data_control (linesAfter ((txnEvents a v).take j) l) n .x hn
    rw [Lines.mode, hb, hc, hbdir, hbc1]
  refine ⟨fun hj => mode_set_control_x ((txn_isControl hev).mpr hj) _, fun hj => ?_, fun hj => ?_, fun hj => ?_⟩
  · rw [hdata (by simp; omega), if_pos (by omega), if_pos (by omega)]
    rfl
  · rw [hdata (by simp; omega), if_neg (by omega), if_neg (by omega)]
    rfl
  · obtain rfl : n = .bc1 := (txn_sets_bc1 hev).mpr (by omega)
    exact hbdir.trans (if_neg (by omega))

/-- Settles O18: the state of the failure, with the mode column and the observer column of R128. -/
theorem transactionFailsAtStep : Obligations.TransactionFailsAtStep := by
  intro a v s j n b e ha hmode hsync hev hok herr
  have hexec := runEngine_fail (n := n) (b := b) (post := (txnEvents a v).drop (j + 1)) hok herr
  rw [← split_at_member hev] at hexec
  have hfail := pinSet_failedAt n b hok herr
  obtain ⟨hunknown, haddress, hinactive, hlow⟩ := txn_fail_mode hev hmode
  obtain ⟨hlost, hentered, hlatched, hcommitted⟩ := txn_fail_chip a v s j n b e hev hok herr
  rw [chipAfterEntry_inSync s (known_of_inactive hmode) hsync] at hentered hlatched hcommitted
  rw [← hfail.lines] at hunknown haddress hinactive hlow
  refine ⟨_, hexec, rfl, onlyBusChanged_fail _ n b _ s, hfail.trace, ?_, fun m hm => ?_, fun hj => ⟨?_, hlost hj⟩,
    fun hj => ⟨haddress hj, hentered hj⟩, fun hj => ⟨hunknown (by simp [hj]), hlow (.inl hj), hlatched (by omega)⟩,
    fun hj => ⟨hinactive hj, hlatched (by omega)⟩, fun hj => ⟨hunknown (by simp [hj]), hlow (.inr hj), ?_⟩⟩
  · rw [endEngine_lines, hfail.lines, get_set, if_pos rfl]
  · rw [endEngine_lines, hfail.lines, (runEvents_ok _ s hok).2.1, get_set, if_neg hm.symm]
  · refine hunknown ?_
    simp only [List.mem_cons, List.not_mem_nil, or_false] at hj ⊢
    omega
  · rw [endEngine_chip, hcommitted hj]
    simp [commit, nReg, ha]

end Sys2Proof.Proofs
end

section
/-! PROOFS. Public commands whose pin sets are answered Ok (41_register_commands.md sections 1 to 3): their sizes, the state in which
each ends from any start, and the registers they write. -/

namespace Sys2Proof.Proofs

open Sys2Proof
open Sys2Proof.Config
open Sys2Proof.Machine
open Sys2Proof.Safety
open Sys2Proof.Laws

variable {E : Type}

/-! ### Sizes (R153) -/

theorem waitCount_append (xs ys : List Event) : waitCount (xs ++ ys) = waitCount xs + waitCount ys := List.countP_append

theorem leastTime_append (xs ys : List Event) : leastTime (xs ++ ys) = leastTime xs + leastTime ys := by
  induction xs with
  | nil => exact (Nat.zero_add _).symm
  | cons x xs ih =>
    cases x with
    | pinSet n b => exact ih
    | wait d => rw [List.cons_append, leastTime, leastTime, ih, Nat.add_assoc]

theorem waitCount_plan (p : List Pair) : waitCount (planEvents p) = 4 * p.length := by
  induction p with
  | nil => rfl
  | cons q p ih =>
    have htxn : waitCount (txnEvents q.1 q.2) = 4 := rfl
    rw [planEvents_cons, waitCount_append, ih, htxn, List.length_cons]
    omega

theorem leastTime_plan (p : List Pair) : leastTime (planEvents p) = 4 * p.length := by
  induction p with
  | nil => rfl
  | cons q p ih =>
    have htxn : leastTime (txnEvents q.1 q.2) = 4 := rfl
    rw [planEvents_cons, leastTime_append, ih, htxn, List.length_cons]
    omega

/-- Settles O32: each size is that of one transaction times the plan's length. -/
theorem commandSizes : Obligations.CommandSizes := by
  intro i hc
  refine ⟨pinCount_plan _, waitCount_plan _, length_plan _, leastTime_plan _, ?_⟩
  cases i with
  | clr | wreg | tone | noise | mix | lvlf | lvle | envf | envs | iow => rfl
  | uina | uadr | uwrt | udrv | utxn | reset => cases hc

/-! ### Every command -/

theorem clr_addresses : ((plan .clr).map fun q => q.1.toNat) = List.range 16 := rfl

/-- No plan names a register twice (R141 to R149). -/
theorem plan_nodup (i : Instr) : ((plan i).map fun q => q.1.toNat).Nodup := by
  cases i with
  | clr => exact clr_addresses ▸ List.nodup_range
  | tone ch f => cases ch <;> simp [plan, periodPlan, toneFineAddr, toneRoughAddr, selOfChannel]
  | envf f => simp [plan, periodPlan, envFineAddr, envRoughAddr]
  | wreg | noise | mix | lvlf | lvle | envs | iow | uina | uadr | uwrt | udrv | utxn | reset => simp [plan]

/-- A plan with one address below 0x10 has no other: only `WREG` can name an address beyond the chip (R62). -/
theorem plan_below {i : Instr} {q : Pair} (hq : q ∈ plan i) (hlt : q.1.toNat < 16) : ∀ q' ∈ plan i, q'.1.toNat < 16 := by
  cases i with
  | clr => exact fun q' hq' => List.mem_range.mp (clr_addresses ▸ List.mem_map_of_mem hq')
  | wreg a v => simp_all [plan]
  | tone ch f => cases ch <;> simp [plan, periodPlan, toneFineAddr, toneRoughAddr, selOfChannel]
  | noise f => simp [plan, noiseAddr]
  | mix m => simp [plan, mixerAddr]
  | lvlf ch n => cases ch <;> simp [plan, levelAddr, selOfChannel]
  | lvle ch => cases ch <;> simp [plan, levelAddr, selOfChannel]
  | envf f => simp [plan, periodPlan, envFineAddr, envRoughAddr]
  | envs x => simp [plan, envShapeAddr]
  | iow p d => cases p <;> simp [plan, portAddr]
  | uina | uadr | uwrt | udrv | utxn | reset => simp [plan]

/-- The byte planned for a register that the plan names once. -/
theorem planned_of_mem {p : List Pair} (hnodup : (p.map fun q => q.1.toNat).Nodup) {q : Pair} (hq : q ∈ p) :
    planned p q.1.toNat = some q.2 := by
  induction p using List.reverseRecOn with
  | nil => cases hq
  | append_singleton p last ih =>
    rw [List.map_append, List.nodup_append] at hnodup
    obtain ⟨hp, -, hother⟩ := hnodup
    rw [List.mem_append, List.mem_singleton] at hq
    rcases hq with hq | rfl
    · have hne : last.1.toNat ≠ q.1.toNat := (hother _ (List.mem_map_of_mem hq) _ (by simp)).symm
      have := ih hp hq
      simp_all [planned]
    · simp [planned]

theorem plan_last {i : Instr} (hc : isCommand i = true) : ∃ p q, plan i = p ++ [q] := by
  rcases List.eq_nil_or_concat (plan i) with hnil | ⟨p, q, hplan⟩
  · exact absurd hc (by simp [isCommand, hnil])
  · exact ⟨p, q, by rw [hplan, List.concat_eq_append]⟩

/-- Settles O30: the model's law of a command answered Ok, and the fold of its plan read at each address. -/
theorem everyCommandEndsOkFromAnyStart : Obligations.EveryCommandEndsOkFromAnyStart := by
  intro i s hc hrun
  obtain ⟨p, last, hplan⟩ := plan_last hc
  obtain ⟨hended, hchip⟩ := runAccepted_ok i p last s hplan hrun.2
  refine ⟨_, last, exec_command i s hc hrun.1, by rw [hplan, List.getLast?_concat], hended, rfl, rfl, fun q hq hlt => ?_⟩
  rw [hchip, fold_read _ _ _ _ (plan_below hq hlt), planned_of_mem (plan_nodup i) hq]

/-! ### Each command's registers -/

theorem length_doneEntries (evs : List Event) : (doneEntries evs : List (TraceEntry E)).length = evs.length := by
  simp [doneEntries]

/-- Settles O19: the plan of `CLR` names each of the sixteen registers, with 0x00. -/
theorem clearAllFromAnyStart : Obligations.ClearAllFromAnyStart := by
  intro s hrun
  obtain ⟨t, last, hexec, hlast, hended, -, -, hread⟩ := everyCommandEndsOkFromAnyStart .clr s rfl hrun
  obtain rfl : (0x0F, 0x00) = last := Option.some.inj hlast
  refine ⟨t, hexec, hended, fun r hr => ?_, ?_⟩
  · have hmem : (BitVec.ofNat 8 r, 0x00) ∈ plan .clr := List.mem_map_of_mem (List.mem_range.mpr hr)
    have haddr : (BitVec.ofNat 8 r).toNat = r := Nat.mod_eq_of_lt (by omega)
    have hcleared := hread _ hmem (by rw [haddr]; exact hr)
    rwa [haddr] at hcleared
  · rw [hended.trace, List.length_append, length_doneEntries, length_plan, Nat.add_comm]
    rfl

/-- Settles O20: the plan is the one pair of the operands. -/
theorem setRegisterValue : Obligations.SetRegisterValue := fun a v _ h ha =>
  exec_sets_register (i := .wreg a v) rfl ha h

/-- A commit beyond the chip, by `CHIP_ADDR_DECODE` (R71). -/
theorem chipWrite_regs_beyond (dec : AddrDecode) (c : Chip) (q : Pair) (h : 16 ≤ q.1.toNat) :
    (chipWrite dec c q).regs =
      match dec with
      | .havoc => []
      | .ignore => c.regs
      | .aliased => c.regs.write (q.1.toNat % 16) (.byte q.2) := by
  have hmask : (q.1 &&& 0x0F).toNat = q.1.toNat % 16 := Nat.and_two_pow_sub_one_eq_mod q.1.toNat 4
  have hbeyond : ¬ q.1.toNat < nReg := Nat.not_lt.mpr h
  cases dec <;> simp only [chipWrite, commit, if_neg hbeyond, hmask]

/-- Settles O21: the plan's pair is driven unmasked, and the chip decodes it. -/
theorem setRegisterValueBeyondTheChip : Obligations.SetRegisterValueBeyondTheChip := by
  intro a v s ⟨hrun, hknown, hsync⟩ ha
  obtain ⟨hended, hchip⟩ := runAccepted_ok (.wreg a v) [] (a, v) s rfl hrun.2
  refine ⟨_, exec_command (.wreg a v) s rfl hrun.1, hended, ?_⟩
  rw [hchip, chipAfterEntry_inSync s hknown hsync]
  exact chipWrite_regs_beyond s.env.addrDecode s.chip (a, v) ha

theorem lowByte_eq (f : Period) : lowByte f = BitVec.ofNat 8 (f.toNat % 256) := by
  apply BitVec.eq_of_toNat_eq
  rw [lowByte_toNat, BitVec.toNat_ofNat]
  omega

theorem highByte_eq (f : Period) : highByte f = BitVec.ofNat 8 (f.toNat / 256) := by
  have := f.isLt
  apply BitVec.eq_of_toNat_eq
  rw [highByte_toNat, BitVec.toNat_ofNat]
  omega

/-- A command whose plan is a period leaves its bytes in its two registers, and no other register changes (R72, R140). -/
theorem exec_sets_period {i : Instr} {fine rough lo hi : Byte} (hp : plan i = [(fine, lo), (rough, hi)])
    (hfine : fine.toNat < 16) (hrough : rough.toNat < 16) {s : State} (h : WillRunInSync 2 s) :
    ∃ t, exec i s = .next t ∧ t.chip.regs.read fine.toNat = .byte lo ∧ t.chip.regs.read rough.toNat = .byte hi ∧
      WrotePlan [(fine, lo), (rough, hi)] (rough, hi) s t := by
  obtain ⟨-, hwrote⟩ := runCommand_wrote i [(fine, lo)] (rough, hi) s hp (by simp [hp, hfine, hrough]) (by rw [hp]; exact h)
  have hwritten : ∀ q ∈ plan i, (runAccepted i s).chip.regs.read q.1.toNat = .byte q.2 := fun q hq =>
    hwrote.written _ _ (planned_of_mem (plan_nodup i) hq)
  exact ⟨_, exec_command i s (by simp [isCommand, hp]) h.1.1, hwritten (fine, lo) (by simp [hp]),
    hwritten (rough, hi) (by simp [hp]), hp ▸ hwrote⟩

/-- Settles O22: the two registers of the channel, fine first. -/
theorem setChannelFrequency : Obligations.SetChannelFrequency := by
  intro ch f s h
  have hplan : plan (.tone ch f) =
      [(toneFineAddr ch, BitVec.ofNat 8 (f.toNat % 256)), (toneRoughAddr ch, BitVec.ofNat 8 (f.toNat / 256))] := by
    rw [← lowByte_eq, ← highByte_eq]; rfl
  have hfine : (toneFineAddr ch).toNat < 16 := by cases ch <;> decide
  have hrough : (toneRoughAddr ch).toNat < 16 := by cases ch <;> decide
  have hsets := exec_sets_period hplan hfine hrough h
  cases ch <;> exact hsets

/-- Settles O26: registers 0xB and 0xC, fine first. -/
theorem setEnvelopeFrequency : Obligations.SetEnvelopeFrequency := by
  intro f s h
  have hplan : plan (.envf f) = [(0x0B, BitVec.ofNat 8 (f.toNat % 256)), (0x0C, BitVec.ofNat 8 (f.toNat / 256))] := by
    rw [← lowByte_eq, ← highByte_eq]; rfl
  exact exec_sets_period hplan (by decide) (by decide) h

end Sys2Proof.Proofs
end

section
/-! PROOFS. Public commands that fail (60_exceptions.md R172, 40_bus_engine.md R128): the state at the first failing pin set of any
command, and what a failing data line leaves half written. -/

namespace Sys2Proof.Proofs

open Sys2Proof
open Sys2Proof.Config
open Sys2Proof.Machine
open Sys2Proof.Safety
open Sys2Proof.Laws

variable {E : Type}

/-! ### The first failing pin set -/

/-- The events of a plan up to step `j` of transaction `k`. -/
def eventsBefore (p : List Pair) (k j : Nat) (q : Pair) : List Event := planEvents (p.take k) ++ (txnEvents q.1 q.2).take j

/-- A plan's events cut at step `j` of transaction `k`. -/
theorem planEvents_split {p : List Pair} {k j : Nat} {q : Pair} {ev : Event} (hq : p[k]? = some q)
    (hev : (txnEvents q.1 q.2)[j]? = some ev) :
    planEvents p = eventsBefore p k j q ++ ev :: ((txnEvents q.1 q.2).drop (j + 1) ++ planEvents (p.drop (k + 1))) := by
  conv_lhs => rw [split_at_member hq, planEvents_append, planEvents_cons, split_at_member hev]
  simp [eventsBefore]

/-- The answers taken before transaction `k`. -/
theorem pinCount_eventsBefore {p : List Pair} {k : Nat} (hk : k ≤ p.length) (j : Nat) (q : Pair) :
    pinCount (eventsBefore p k j q) = 24 * k + pinCount ((txnEvents q.1 q.2).take j) := by
  rw [eventsBefore, pinCount_append, pinCount_plan, List.length_take_of_le hk]

/-- What step 1 of the transaction after a plan finds: only the first exit of all can act (R72, R212). -/
theorem chipAfterEntry_plan (p : List Pair) (s : State E) (h : answersOk (24 * p.length) s.env.pins = true) :
    chipAfterEntry (runEvents (planEvents p) s).1 = p.foldl (chipWrite s.env.addrDecode) (chipAfterEntry s) := by
  cases p with
  | nil => rfl
  | cons q p =>
    have h' : answersOk (24 + 24 * p.length) s.env.pins = true := by
      rwa [List.length_cons, Nat.mul_succ, Nat.add_comm] at h
    obtain ⟨t, hrun, ht, -, -, -, hrest, -⟩ := runEvents_part (txnEvents q.1 q.2) s 24 (24 * p.length) rfl h'
    obtain ⟨hsync, hknown, -⟩ := txn_inSync q.1 q.2 s (answersOk_mono (by omega) h')
    rw [← ht] at hsync hknown
    obtain ⟨hsync', hknown', -⟩ := plan_inSync p t hknown hsync hrest
    have hchip := plan_chip (q :: p) s (by simp) h
    rw [planEvents_cons, runEvents_append_ok hrun] at hchip ⊢
    rw [chipAfterEntry_inSync _ hknown' hsync', hchip]

/-- The chip at the first failing pin set of a plan, at step `j` of transaction `k` (the observer column of R128). -/
theorem plan_fail_chip {p : List Pair} {k j : Nat} {q : Pair} {n : Line} {b : Bool} {s : State E} {e : E} (hk : k ≤ p.length)
    (hev : (txnEvents q.1 q.2)[j]? = some (.pinSet n b))
    (hok : answersOk (pinCount (eventsBefore p k j q)) s.env.pins = true)
    (herr : (s.env.pins.drop (pinCount (eventsBefore p k j q))).head = .err e) :
    let t := (pinSet n b (runEvents (eventsBefore p k j q) s).1).1
    let c := (p.take k).foldl (chipWrite s.env.addrDecode) (chipAfterEntry s)
    (j ∈ [0, 1, 11, 22, 23, 25] → t.chip = Chip.lost) ∧
      (2 ≤ j ∧ j ≤ 9 → t.chip = c) ∧
      (12 ≤ j ∧ j ≤ 21 → t.chip = { c with al := .byte q.1 }) ∧
      (j = 26 → t.chip = commit s.env.addrDecode { c with al := .byte q.1 } (.byte q.2)) := by
  have hcount : pinCount (planEvents (p.take k)) = 24 * k := by rw [pinCount_plan, List.length_take_of_le hk]
  rw [pinCount_eventsBefore hk] at hok herr
  obtain ⟨u, hrun, hu, -, -, hpins, hok', hdec⟩ := runEvents_part (planEvents (p.take k)) s _ _ hcount hok
  rw [← drop_drop, ← hpins] at herr
  have hentry : chipAfterEntry u = (p.take k).foldl (chipWrite s.env.addrDecode) (chipAfterEntry s) := by
    rw [hu]
    exact chipAfterEntry_plan (p.take k) s (by rw [List.length_take_of_le hk]; exact answersOk_mono (by omega) hok)
  have hchip := txn_fail_chip q.1 q.2 u j n b e hev hok' herr
  rw [hentry, hdec] at hchip
  simp only [eventsBefore, runEvents_append_ok hrun]
  exact hchip

/-- Settles O34: the plan cut at the failing pin set; the chip as the transactions before it and its own step leave it. -/
theorem commandAbortsAtFirstFailure : Obligations.CommandAbortsAtFirstFailure := by
  intro i s k j q n b e pre start c hc hidle hq hev hok herr
  have hk : k ≤ (plan i).length := (List.getElem?_eq_some_iff.mp hq).1.le
  have hfail := pinSet_failedAt (s := accept i s) n b hok herr
  obtain ⟨hlost, hentered, hlatched, hcommitted⟩ := plan_fail_chip (s := accept i s) hk hev hok herr
  have hbus := runEvents_only_bus pre (accept i s)
  have hend := runAccepted_fail i s pre _ n b e (planEvents_split hq hev) hok herr
  refine ⟨_, exec_command i s hc hidle, ?_⟩
  rw [hend]
  exact ⟨rfl, rfl, hfail.trace, hfail.lines, hlost, hentered, hlatched, hcommitted, hfail.pins,
    runEvents_engineReturn pre (accept i s), hbus.addrDecode, hbus.agenda⟩

/-! ### Failing data lines -/

/-- The data lines of a transaction are set before its address is latched, or after that and before the value is written (R125). -/
theorem data_step {a v : Byte} {j : Nat} {n : Line} {b : Bool} (hev : (txnEvents a v)[j]? = some (.pinSet n b))
    (hn : n.isControl = false) : (2 ≤ j ∧ j ≤ 9) ∨ (12 ≤ j ∧ j ≤ 21) := by
  have hcontrol : j ∉ [0, 1, 11, 12, 22, 23, 25, 26] := by simp [← txn_isControl hev, hn]
  have hj : j < 28 := (List.getElem?_eq_some_iff.mp hev).1
  have hwait : j ∉ [10, 24, 27] := fun hj => by
    simp only [List.mem_cons, List.not_mem_nil, or_false] at hj
    rcases hj with rfl | rfl | rfl <;> cases hev
  simp only [List.mem_cons, List.not_mem_nil, or_false] at hcontrol hwait
  omega

/-- A command that fails on a data line of its transaction `k`: the registers are those of the transactions before it. -/
theorem exec_fails_on_data_line {i : Instr} {s : State} {k : Nat} {q : Pair} {pre post : List Event} {n : Line} {b : Bool}
    {e : ErrVal} (hidle : s.run = .idle) (hknown : ControlKnown s.lines) (hsync : InSync s) (hn : n.isControl = false)
    (hq : (plan i)[k]? = some q) (hsplit : txnEvents q.1 q.2 = pre ++ .pinSet n b :: post)
    (hok : answersOk (24 * k + pinCount pre) s.env.pins = true) (herr : (s.env.pins.drop (24 * k + pinCount pre)).head = .err e) :
    ∃ t, exec i s = .next t ∧ t.run = .idle ∧ t.result = .fail e ∧
      t.chip.regs = (((plan i).take k).foldl (chipWrite s.env.addrDecode) s.chip).regs := by
  have hlt : k < (plan i).length := (List.getElem?_eq_some_iff.mp hq).1
  have hc : isCommand i = true := by simpa [isCommand] using List.ne_nil_of_length_pos (Nat.zero_lt_of_lt hlt)
  have hev : (txnEvents q.1 q.2)[pre.length]? = some (.pinSet n b) := by simp [hsplit]
  have htake : (txnEvents q.1 q.2).take pre.length = pre := by simp [hsplit]
  have hcount := pinCount_eventsBefore hlt.le pre.length q
  rw [htake] at hcount
  rw [← hcount] at hok herr
  obtain ⟨t, hexec, hrun, hresult, -, -, -, hentered, hlatched, -⟩ :=
    commandAbortsAtFirstFailure i s k pre.length q n b e hc hidle hq hev hok herr
  refine ⟨t, hexec, hrun, hresult, ?_⟩
  rw [← chipAfterEntry_inSync s hknown hsync]
  rcases data_step hev hn with hj | hj
  · rw [hentered hj]; rfl
  · rw [hlatched hj]; rfl

theorem planned_none {p : List Pair} {r : Nat} (h : ∀ q ∈ p, q.1.toNat ≠ r) : planned p r = none := by
  have hnone : p.reverse.find? (fun q => q.1.toNat == r) = none := by simpa [List.find?_eq_none] using h
  rw [planned, hnone, Option.map_none]

/-- Settles O35: the transactions before `k` are those of the registers below `k`. -/
theorem partialClear : Obligations.PartialClear := by
  intro s k pre post n b e hk hidle hknown hsync hn hsplit hok herr
  have haddr : ∀ {r : Nat}, r < 16 → (BitVec.ofNat 8 r).toNat = r := fun hr => Nat.mod_eq_of_lt (by omega)
  have hq : (plan .clr)[k]? = some (BitVec.ofNat 8 k, 0x00) := by simp [plan, clearPlan, nReg, hk]
  have htake : (plan .clr).take k = (List.range k).map fun r => (BitVec.ofNat 8 r, 0x00) := by
    rw [plan, clearPlan, ← List.map_take, List.take_range, Nat.min_eq_left (show k ≤ nReg from hk.le)]
  obtain ⟨t, hexec, hrun, hresult, hregs⟩ := exec_fails_on_data_line hidle hknown hsync hn hq hsplit hok herr
  have hbelow : ∀ q ∈ (plan .clr).take k, q.1.toNat < 16 := fun q hq =>
    List.mem_range.mp (clr_addresses ▸ List.mem_map_of_mem (List.mem_of_mem_take hq))
  have hread := fun r => fold_read s.env.addrDecode ((plan .clr).take k) s.chip r hbelow
  refine ⟨t, hexec, hrun, hresult, fun r hr => ?_, fun r hr => ?_⟩ <;> rw [hregs, hread r]
  · have hmem : (BitVec.ofNat 8 r, 0x00) ∈ (plan .clr).take k := by
      rw [htake]
      exact List.mem_map_of_mem (List.mem_range.mpr hr)
    have hnodup : (((plan .clr).take k).map fun q => q.1.toNat).Nodup := by
      rw [List.map_take]
      exact (plan_nodup .clr).sublist (List.take_sublist _ _)
    have hplanned := planned_of_mem hnodup hmem
    rw [haddr (by omega)] at hplanned
    rw [hplanned]
  · rw [planned_none]
    intro q hq
    rw [htake] at hq
    obtain ⟨r', hr', rfl⟩ := List.mem_map.mp hq
    have := List.mem_range.mp hr'
    rw [haddr (by omega)]
    omega

/-- A period that fails on a data line of its second transaction: the first register has its byte, no other changes (R217). -/
theorem exec_half_writes {i : Instr} {s : State} {fine rough lo hi : Byte} {pre post : List Event} {n : Line} {b : Bool} {e : ErrVal}
    (hp : plan i = [(fine, lo), (rough, hi)]) (hfine : fine.toNat < 16) (hidle : s.run = .idle) (hknown : ControlKnown s.lines)
    (hsync : InSync s) (hn : n.isControl = false) (hok : answersOk (24 + pinCount pre) s.env.pins = true)
    (herr : (s.env.pins.drop (24 + pinCount pre)).head = .err e) (hsplit : txnEvents rough hi = pre ++ .pinSet n b :: post) :
    ∃ t, exec i s = .next t ∧ t.run = .idle ∧ t.result = .fail e ∧ t.chip.regs.read fine.toNat = .byte lo ∧
      (∀ r, r ≠ fine.toNat → t.chip.regs.read r = s.chip.regs.read r) := by
  obtain ⟨t, hexec, hrun, hresult, hregs⟩ :=
    exec_fails_on_data_line (i := i) (k := 1) (q := (rough, hi)) hidle hknown hsync hn (by rw [hp]; rfl) hsplit hok herr
  have hbelow : ∀ q ∈ [(fine, lo)], q.1.toNat < 16 := fun q hq => by rw [List.mem_singleton.mp hq]; exact hfine
  have hread := fun r => fold_read s.env.addrDecode [(fine, lo)] s.chip r hbelow
  have htake : (plan i).take 1 = [(fine, lo)] := by rw [hp]; rfl
  rw [htake] at hregs
  refine ⟨t, hexec, hrun, hresult, ?_, fun r hr => ?_⟩ <;> rw [hregs, hread]
  · rw [planned_pair_same]
  · rw [planned_pair_other _ _ hr]

/-- Settles O36: for `TONE` the channel's two registers, for `ENVF` 0xB and 0xC. -/
theorem halfWrittenPeriod : Obligations.HalfWrittenPeriod := by
  intro f s pre post n b e hidle hknown hsync hn hok herr
  refine ⟨fun ch hsplit => ?_, fun hsplit => ?_⟩
  · exact exec_half_writes (i := .tone ch f) rfl (by cases ch <;> decide) hidle hknown hsync hn hok herr hsplit
  · exact exec_half_writes (i := .envf f) (fine := 0x0B) rfl (by decide) hidle hknown hsync hn hok herr hsplit

end Sys2Proof.Proofs
end

section
/-! PROOFS. The sequencer one micro-event a step, against the blocking calls: one induction over the events still to be issued, for
commands and for the reset (10_state.md R29, 41_register_commands.md R140, 70_reset_and_hazards.md R201). -/

namespace Sys2Proof.Proofs

open Sys2Proof
open Sys2Proof.Config
open Sys2Proof.Machine
open Sys2Proof.Safety
open Sys2Proof.Laws

variable {E : Type}

/-! ### The position is not read by micro-events -/

/-- A state at another position. -/
def atPos (p : Position) (s : State E) : State E := { s with pos := p }

theorem issue_atPos (p : Position) (ev : Event) (s : State E) :
    issue ev (atPos p s) = (atPos p (issue ev s).1, (issue ev s).2) := by cases ev <;> rfl

theorem runEvents_atPos (p : Position) (evs : List Event) (s : State E) :
    runEvents evs (atPos p s) = (atPos p (runEvents evs s).1, (runEvents evs s).2) := by
  induction evs generalizing s with
  | nil => rfl
  | cons ev evs ih =>
    rw [runEvents_cons, runEvents_cons, issue_atPos]
    rcases issue ev s with ⟨s1, _ | e⟩
    · exact ih s1
    · rfl

/-! ### Runs of the machine -/

theorem run_zero (s : State) : Host.Core.run core 0 s = .next s := rfl

theorem run_succ {s t : State} (h : step s = .next t) (m : Nat) : Host.Core.run core (m + 1) s = Host.Core.run core m t := by
  have hcore : core.step s = .next t := h
  simp only [Host.Core.run, hcore]

/-- The micro-events of a list, then the end that its operation has. -/
def endAfter (fin : Option ErrVal → State → State) (evs : List Event) (s : State) : State :=
  fin (runEvents evs s).2 (runEvents evs s).1

/-- How a sequencer goes through a list of events: `At rest s` says that `rest` is what remains to be issued. -/
structure Sequences (At : List Event → State → Prop) (fin : Option ErrVal → State → State) : Prop where
  /-- A failure ends it. -/
  fails : ∀ {ev rest s e}, At (ev :: rest) s → (issue ev s).2 = some e → step s = .next (fin (some e) (issue ev s).1)
  /-- The last event ends it. -/
  ends : ∀ {ev s}, At [ev] s → (issue ev s).2 = none → step s = .next (fin none (issue ev s).1)
  /-- Any other event moves the position. -/
  advances : ∀ {ev ev' rest s}, At (ev :: ev' :: rest) s → (issue ev s).2 = none →
    ∃ p, step s = .next (atPos p (issue ev s).1) ∧ At (ev' :: rest) (atPos p (issue ev s).1)
  /-- The end does not depend on the position. -/
  pos_free : ∀ f p s, fin f (atPos p s) = fin f s

/-- The sequencer's steps stand, when they end, where the list run at once stands; and until then something remains. -/
theorem Sequences.run {At : List Event → State → Prop} {fin : Option ErrVal → State → State} (hseq : Sequences At fin)
    {rest : List Event} (hrest : rest ≠ []) {s : State} (hat : At rest s) :
    ∃ m, 0 < m ∧ m ≤ rest.length ∧ Host.Core.run core m s = .next (endAfter fin rest s) ∧
      ∀ m', m' < m → ∃ u : State, Host.Core.run core m' s = .next u ∧ ∃ rest', At rest' u := by
  induction rest generalizing s with
  | nil => exact absurd rfl hrest
  | cons ev rest ih =>
    have hfirst : ∀ m', m' < 1 → ∃ u : State, Host.Core.run core m' s = .next u ∧ ∃ rest', At rest' u := by
      intro m' hm'
      obtain rfl : m' = 0 := by omega
      exact ⟨s, rfl, _, hat⟩
    cases hfail : (issue ev s).2 with
    | some e =>
      have hissue : issue ev s = ((issue ev s).1, some e) := Prod.ext rfl hfail
      refine ⟨1, by omega, by simp, ?_, hfirst⟩
      rw [run_succ (hseq.fails hat hfail), run_zero, endAfter, runEvents_cons, hissue]
    | none =>
      have hissue : issue ev s = ((issue ev s).1, none) := Prod.ext rfl hfail
      have hcons : runEvents (ev :: rest) s = runEvents rest (issue ev s).1 := by rw [runEvents_cons, hissue]
      cases rest with
      | nil =>
        refine ⟨1, by omega, by simp, ?_, hfirst⟩
        rw [run_succ (hseq.ends hat hfail), run_zero, endAfter, hcons, runEvents_nil]
      | cons ev' rest =>
        obtain ⟨p, hstep, hat'⟩ := hseq.advances hat hfail
        obtain ⟨m, -, hle, hrun, hbefore⟩ := ih (by simp) hat'
        refine ⟨m + 1, by omega, by simpa using hle, ?_, fun m' hm' => ?_⟩
        · rw [run_succ hstep, hrun, endAfter, endAfter, hcons, runEvents_atPos]
          exact congrArg _ (hseq.pos_free ..)
        · cases m' with
          | zero => exact ⟨s, rfl, _, hat⟩
          | succ m' =>
            rw [run_succ hstep]
            exact hbefore m' (by omega)

/-! ### Commands -/

/-- Where a position stands in the events of a plan (R29): 28 to a transaction. -/
theorem planEvents_at (p : List Pair) (k j : Nat) (hj : j < 28) :
    (planEvents p)[28 * k + j]? = p[k]?.bind fun q => (txnEvents q.1 q.2)[j]? := by
  induction p generalizing k with
  | nil => simp
  | cons q p ih =>
    rw [planEvents_cons]
    cases k with
    | zero => rw [List.getElem?_append_left (by simp; omega)]; simp
    | succ k =>
      rw [List.getElem?_append_right (by simp; omega), List.getElem?_cons_succ, ← ih, length_txn]
      congr 1
      omega

/-- BUSY with a command, the events from its position on still to be issued. -/
def BusyWith (i : Instr) (rest : List Event) (s : State) : Prop :=
  s.run = .busy ∧ s.cmd = some i ∧ ∃ k j, s.pos = .step k j ∧ j < 28 ∧ (planEvents (plan i)).drop (28 * k + j) = rest

/-- What the position of a running command names. -/
theorem BusyWith.step_eq {i : Instr} {ev : Event} {rest : List Event} {s : State} (h : BusyWith i (ev :: rest) s) :
    ∃ k j q, s.pos = .step k j ∧ j < 28 ∧ (planEvents (plan i)).drop (28 * k + j) = ev :: rest ∧ (plan i)[k]? = some q ∧
      (txnEvents q.1 q.2)[j]? = some ev := by
  obtain ⟨-, -, k, j, hpos, hj, hdrop⟩ := h
  have hat : (planEvents (plan i))[28 * k + j]? = some ev := by
    rw [← Nat.add_zero (28 * k + j), ← List.getElem?_drop, hdrop]; rfl
  rw [planEvents_at _ _ _ hj, Option.bind_eq_some_iff] at hat
  obtain ⟨q, hq, hev⟩ := hat
  exact ⟨k, j, q, hpos, hj, hdrop, hq, hev⟩

theorem busyStep_fails {i : Instr} {k j : Nat} {q : Pair} {ev : Event} {s : State E} {e : E} (hq : (plan i)[k]? = some q)
    (hev : (txnEvents q.1 q.2)[j]? = some ev) (h : (issue ev s).2 = some e) :
    busyStep i k j s = .next (endCommand (some e) (issue ev s).1) := by
  have hissue : issue ev s = ((issue ev s).1, some e) := Prod.ext rfl h
  simp only [busyStep, hq, hev]
  rw [hissue]

theorem busyStep_goes_on {i : Instr} {k j : Nat} {q : Pair} {ev : Event} {s : State E} (hq : (plan i)[k]? = some q)
    (hev : (txnEvents q.1 q.2)[j]? = some ev) (h : (issue ev s).2 = none) :
    busyStep i k j s = .next (advance (plan i).length k j (issue ev s).1) := by
  have hissue : issue ev s = ((issue ev s).1, none) := Prod.ext rfl h
  simp only [busyStep, hq, hev]
  rw [hissue]

/-- The three moves of the position (R29). -/
theorem advance_step {n k j : Nat} (hj : j < 27) (s : State E) : advance n k j s = atPos (.step k (j + 1)) s :=
  if_pos (Nat.succ_lt_succ hj)

theorem advance_transaction {n k : Nat} (hk : k + 1 < n) (s : State E) : advance n k 27 s = atPos (.step (k + 1) 0) s :=
  if_pos hk

theorem advance_end {n k : Nat} (hk : n ≤ k + 1) (s : State E) : advance n k 27 s = endCommand none s :=
  if_neg (Nat.not_lt.mpr hk)

/-- Settles O46: `busyStep` by the answer, then `advance` by its three cases. -/
theorem positionAdvances : Obligations.PositionAdvances := by
  intro s i k j q ev hrun hcmd hpos hq hev
  rw [step_busy s i k j hrun hcmd hpos]
  refine ⟨fun e he => busyStep_fails hq hev he, fun hok => ?_⟩
  rw [busyStep_goes_on hq hev hok]
  refine ⟨fun hj => ?_, fun hj hk => ?_, fun hj hk => ?_⟩
  · rw [advance_step hj]; rfl
  · rw [hj, advance_transaction hk]; rfl
  · rw [hj, advance_end hk.ge]

/-- The sequencer goes through a plan's events as `Run(cmd)` does (R29, R140). -/
theorem busy_sequences (i : Instr) : Sequences (BusyWith i) endCommand where
  fails {ev rest s e} h hfail := by
    obtain ⟨k, j, q, hpos, -, -, hq, hev⟩ := h.step_eq
    rw [step_busy s i k j h.1 h.2.1 hpos, busyStep_fails hq hev hfail]
  ends {ev s} h hok := by
    obtain ⟨k, j, q, hpos, hj, hdrop, hq, hev⟩ := h.step_eq
    have hlen := congrArg List.length hdrop
    have hk : k < (plan i).length := (List.getElem?_eq_some_iff.mp hq).1
    rw [List.length_drop, length_plan, List.length_singleton] at hlen
    obtain rfl : j = 27 := by omega
    rw [step_busy s i k 27 h.1 h.2.1 hpos, busyStep_goes_on hq hev hok, advance_end (by omega)]
  advances {ev ev' rest s} h hok := by
    obtain ⟨k, j, q, hpos, hj, hdrop, hq, hev⟩ := h.step_eq
    have hbus := issue_only_bus ev s
    have hnext : ∀ k' j', 28 * k' + j' = 28 * k + j + 1 → j' < 28 →
        BusyWith i (ev' :: rest) (atPos (.step k' j') (issue ev s).1) := fun k' j' hpos' hj' =>
      ⟨hbus.run.trans h.1, hbus.cmd.trans h.2.1, k', j', rfl, hj', by
        rw [hpos', ← List.drop_drop, hdrop, List.drop_one, List.tail_cons]⟩
    rw [step_busy s i k j h.1 h.2.1 hpos, busyStep_goes_on hq hev hok]
    by_cases hlast : j < 27
    · rw [advance_step hlast]
      exact ⟨_, rfl, hnext k (j + 1) (by omega) (by omega)⟩
    · obtain rfl : j = 27 := by omega
      have hlen := congrArg List.length hdrop
      rw [List.length_drop, length_plan, List.length_cons, List.length_cons] at hlen
      rw [advance_transaction (by omega)]
      exact ⟨_, rfl, hnext (k + 1) 0 (by omega) (by omega)⟩
  pos_free _ _ _ := rfl

/-- Settles O48: `Sequences.run` from acceptance, where all events of the plan remain. -/
theorem blockingCallIsTheSequencersRun : Obligations.BlockingCallIsTheSequencersRun := by
  intro i s hc hidle
  have hstart : BusyWith i (planEvents (plan i)) (accept i s) := ⟨rfl, rfl, 0, 0, rfl, by decide, rfl⟩
  have hne : planEvents (plan i) ≠ [] := by
    have := isCommand_length_pos hc
    rw [← List.length_pos_iff, length_plan]
    omega
  obtain ⟨m, hpos, hle, hrun, hbefore⟩ := (busy_sequences i).run hne hstart
  refine ⟨m, hpos, by rwa [length_plan] at hle, ?_, fun m' hm' => ?_⟩
  · rw [hrun, exec_command i s hc hidle]; rfl
  · obtain ⟨u, hu, rest, hbusy⟩ := hbefore m' hm'
    exact ⟨u, hu, hbusy.1, hbusy.2.1⟩

/-! ### The reset -/

/-- RESETTING, the pin sets from its position on still to be issued (R201). -/
def ResettingWith (rest : List Event) (s : State) : Prop :=
  s.run = .resetting ∧ ∃ r, s.pos = .resetStep r ∧ inactiveEvents.drop r = rest

theorem step_resetting {s : State} {r : Nat} (hrun : s.run = .resetting) (hpos : s.pos = .resetStep r) :
    step s = resettingStep r s := by
  simp [step, stepBy, fetch, State.busy, hrun, sequencerStep, hpos]

theorem resettingStep_fails {r : Nat} {ev : Event} {s : State E} {e : E} (hev : inactiveEvents[r]? = some ev)
    (h : (issue ev s).2 = some e) : resettingStep r s = .next (endReset (some e) (issue ev s).1) := by
  have hissue : issue ev s = ((issue ev s).1, some e) := Prod.ext rfl h
  simp only [resettingStep, hev]
  rw [hissue]

theorem resettingStep_goes_on {r : Nat} {ev : Event} {s : State E} (hev : inactiveEvents[r]? = some ev)
    (h : (issue ev s).2 = none) : resettingStep r s = .next (advanceReset r (issue ev s).1) := by
  have hissue : issue ev s = ((issue ev s).1, none) := Prod.ext rfl h
  simp only [resettingStep, hev]
  rw [hissue]

theorem ResettingWith.step_eq {ev : Event} {rest : List Event} {s : State} (h : ResettingWith (ev :: rest) s) :
    ∃ r, s.pos = .resetStep r ∧ inactiveEvents.drop r = ev :: rest ∧ inactiveEvents[r]? = some ev := by
  obtain ⟨-, r, hpos, hdrop⟩ := h
  refine ⟨r, hpos, hdrop, ?_⟩
  rw [← Nat.add_zero r, ← List.getElem?_drop, hdrop]; rfl

/-- The sequencer goes through the two pin sets of the reset as R201 does. -/
theorem resetting_sequences : Sequences ResettingWith endReset where
  fails {ev rest s e} h hfail := by
    obtain ⟨r, hpos, -, hev⟩ := h.step_eq
    rw [step_resetting h.1 hpos, resettingStep_fails hev hfail]
  ends {ev s} h hok := by
    obtain ⟨r, hpos, hdrop, hev⟩ := h.step_eq
    have hlen := congrArg List.length hdrop
    rw [List.length_drop, List.length_singleton] at hlen
    rw [step_resetting h.1 hpos, resettingStep_goes_on hev hok, advanceReset, if_neg (by omega)]
  advances {ev ev' rest s} h hok := by
    obtain ⟨r, hpos, hdrop, hev⟩ := h.step_eq
    have hlen := congrArg List.length hdrop
    rw [List.length_drop, List.length_cons, List.length_cons] at hlen
    rw [step_resetting h.1 hpos, resettingStep_goes_on hev hok, advanceReset, if_pos (by omega)]
    refine ⟨_, rfl, (issue_only_bus ev s).run.trans h.1, r + 1, rfl, ?_⟩
    rw [← List.drop_drop, hdrop, List.drop_one, List.tail_cons]
  pos_free _ _ _ := rfl

/-- Settles O49: `Sequences.run` from the request, where both pin sets remain. -/
theorem blockingResetIsTheSequencersRun : Obligations.BlockingResetIsTheSequencersRun := by
  intro s hrun
  have hstart : ResettingWith inactiveEvents (beginReset s) := ⟨rfl, 0, rfl, rfl⟩
  obtain ⟨m, hpos, hle, hm, hbefore⟩ := resetting_sequences.run (by simp [inactiveEvents]) hstart
  refine ⟨m, hpos, hle, ?_, fun m' hm' => ?_⟩
  · rw [hm, reset_exec s hrun]; rfl
  · obtain ⟨u, hu, rest, hresetting⟩ := hbefore m' hm'
    exact ⟨u, hu, hresetting.1⟩

end Sys2Proof.Proofs
end

section
/-! PROOFS. The invariants of 10_state.md section 7: what a move of the host can do, said once, and each invariant held against every
way a step can go. -/

namespace Sys2Proof.Proofs

open Sys2Proof
open Sys2Proof.Config
open Sys2Proof.Machine
open Sys2Proof.Safety
open Sys2Proof.Laws

variable {E : Type}

/-! ### Moves of the host -/

/-- A called word that is seen finds the controller IDLE, or is a reset request (R90, R200). -/
theorem seen_cases {e : Encoded} {s : State E} {i : Instr} (hseen : seen e s = true) (hdecode : decode e = .ok i) :
    s.run = .idle ∨ i = .reset := by
  cases e with
  | req1 w =>
    obtain ⟨-, hi⟩ := constraint_eq_ok.mp hdecode
    cases hi
    exact .inr rfl
  | cmd32 | ctrl2 | data8 | txn16 => exact .inl (by simpa [seen, State.ready] using hseen)

/-- A word that a host can call spells a command or a reset request (R96). -/
theorem hostMove_decode {e : Encoded} {i : Instr} (hhost : isHostMove (.call e) = true) (hdecode : decode e = .ok i) :
    isCommand i = true ∨ i = .reset := by
  cases e with
  | cmd32 w => exact .inl (cmd32_isCommand w i hdecode)
  | req1 w =>
    obtain ⟨-, hi⟩ := constraint_eq_ok.mp hdecode
    cases hi
    exact .inr rfl
  | ctrl2 | data8 | txn16 => cases hhost

/-- No host move: nothing is taken off the agenda. -/
theorem dropMove_of_nil {s : State E} (h : s.env.agenda = []) : dropMove s = s := by
  obtain ⟨b, r, env⟩ := s
  obtain ⟨pins, transients, dec, agenda⟩ := env
  cases h
  rfl

/-- When nothing runs, a step takes the host's move off and does nothing more, or it begins or runs a command or a reset, or, when
IDLE, it runs a list of micro-events by itself. -/
theorem hostStep_cases {s t : State} (hb : s.busy = false) (h : step s = .next t) :
    t = dropMove s ∨
    (∃ i, isCommand i = true ∧ s.run = .idle ∧ (t = accept i (dropMove s) ∨ t = runAccepted i (dropMove s))) ∨
    (t = beginReset (dropMove s) ∨ t = runReset (dropMove s)) ∨
    (s.run = .idle ∧ (∃ m ∈ s.env.agenda, isHostMove m = false) ∧
      ∃ evs, t = endEngine (runEvents evs (dropMove s)).2 (runEvents evs (dropMove s)).1) := by
  rcases step_cases s t h with ⟨_, _, _, _, _, hrun, -⟩ | ⟨_, _, hrun, -⟩ | ⟨-, hcases⟩
  · simp [State.busy, hrun] at hb
  · simp [State.busy, hrun] at hb
  rcases hcases with ⟨rfl, hnil⟩ | ⟨-, rfl⟩ | ⟨e, i, hmem, hseen, hdecode, hexec⟩ | ⟨i, hidle, hc, rfl⟩ | rfl
  · exact .inl (dropMove_of_nil hnil).symm
  · exact .inl rfl
  · rcases exec_outcome i (dropMove s) with ⟨-, h⟩ | ⟨hc, hidle, h⟩ | ⟨-, -, h⟩ | ⟨hc, hr, evs, h⟩ <;>
      rw [h] at hexec <;> cases hexec
    · exact .inl rfl
    · exact .inr (.inl ⟨i, hc, hidle, .inr rfl⟩)
    · exact .inr (.inr (.inl (.inr rfl)))
    · refine .inr (.inr (.inr ⟨(seen_cases hseen hdecode).resolve_right hr, ⟨_, List.mem_of_mem_head? hmem, ?_⟩, evs, rfl⟩))
      by_contra hhost
      rcases hostMove_decode (by simpa using hhost) hdecode with hc' | hr'
      · exact absurd hc (by simp [hc'])
      · exact hr hr'
  · exact .inr (.inl ⟨i, hc, hidle, .inl rfl⟩)
  · exact .inr (.inr (.inl (.inl rfl)))

/-! ### Invariants of the bus -/

/-- A property of lines, chip and trace that every pin set and every wait keeps is kept by every step. -/
theorem step_keeps {P : State → Prop}
    (hframe : ∀ {s t : State}, P s → t.lines = s.lines → t.chip = s.chip → t.trace = s.trace → P t)
    (hset : ∀ n b s, P s → P (pinSet n b s).1) (hwait : ∀ d s, P s → P (wait d s)) {s t : State} (h : P s)
    (hstep : step s = .next t) : P t := by
  have hissue : ∀ ev, P (issue ev s).1 := fun ev => issue_keeps hset hwait ev s h
  have hruns : ∀ evs u, P u → P (runEvents evs u).1 := runEvents_keeps hset hwait
  have hdrop : P (dropMove s) := hframe h rfl rfl rfl
  rcases step_cases s t hstep with ⟨i, k, j, q, ev, -, -, -, -, -, ⟨e, -, rfl⟩ | ⟨-, rfl⟩⟩ |
    ⟨r, ev, -, -, -, ⟨e, -, rfl⟩ | ⟨-, rfl⟩⟩ | ⟨hb, -⟩
  · exact hframe (hissue ev) rfl rfl rfl
  · unfold advance
    repeat' split
    all_goals exact hframe (hissue ev) rfl rfl rfl
  · exact hframe (hissue ev) rfl rfl rfl
  · unfold advanceReset
    split
    all_goals exact hframe (hissue ev) rfl rfl rfl
  · rcases hostStep_cases hb hstep with rfl | ⟨i, -, -, rfl | rfl⟩ | (rfl | rfl) | ⟨-, -, evs, rfl⟩
    · exact hdrop
    · exact hframe hdrop rfl rfl rfl
    · exact hframe (hruns _ (accept i (dropMove s)) (hframe hdrop rfl rfl rfl)) rfl rfl rfl
    · exact hframe hdrop rfl rfl rfl
    · exact hframe (hruns _ (beginReset (dropMove s)) (hframe hdrop rfl rfl rfl)) rfl rfl rfl
    · exact hframe (hruns _ _ hdrop) rfl rfl rfl

/-- Settles O51: the observer writes registers below 0x10 only. -/
theorem stepKeepsRegistersCanonical : Obligations.StepKeepsRegistersCanonical := fun _ _ h hstep =>
  step_keeps (P := RegistersOk) (fun h _ hchip _ => by rw [RegistersOk, hchip]; exact h)
    (fun n _ s h => observe_keeps_wf n _ _ s h) (fun _ _ h => h) h hstep

/-- The trace entry of a pin set says what level it leaves (R110, R38.5). -/
theorem levelOf_setEntry (m n : Line) (b : Bool) (a : Answer E) (es : List (TraceEntry E)) :
    levelOf m (setEntry n b a :: es) = if n = m then levelAfter b a else levelOf m es := by
  cases a <;> rfl

/-- Settles O52: a pin set writes its line and its entry together. -/
theorem stepKeepsLinesFollowTrace : Obligations.StepKeepsLinesFollowTrace := by
  intro s t h hstep
  refine step_keeps (P := LinesFollowTrace) ?_ ?_ (fun _ _ h => h) h hstep
  · intro s t h hlines _ htrace n
    rw [hlines, htrace]
    exact h n
  · intro n b s h m
    rw [pinSet_lines, pinSet_trace, get_set, levelOf_setEntry, h m]

/-! ### Results -/

theorem resultOf_eq_ok {f : Option E} : resultOf f = .ok ↔ f = none := by
  cases f <;> simp [resultOf]

theorem resultOf_eq_fail {f : Option E} {e : E} : resultOf f = .fail e ↔ f = some e := by
  cases f <;> simp [resultOf]

/-- After a success the position moves or the command ends with OK (R29). -/
theorem advance_cases (n k j : Nat) (s : State E) :
    (∃ k' j', advance n k j s = atPos (.step k' j') s) ∨ advance n k j s = endCommand none s := by
  unfold advance
  split
  · exact .inl ⟨_, _, rfl⟩
  · split
    · exact .inl ⟨_, _, rfl⟩
    · exact .inr rfl

theorem advanceReset_cases (r : Nat) (s : State E) :
    (r + 1 < 2 ∧ advanceReset r s = atPos (.resetStep (r + 1)) s) ∨ (2 ≤ r + 1 ∧ advanceReset r s = endReset none s) := by
  unfold advanceReset
  split
  · next h => exact .inl ⟨h, rfl⟩
  · next h => exact .inr ⟨Nat.not_lt.mp h, rfl⟩

/-- A failure reported stands in the trace, when the result is the old one and the trace has only grown. -/
theorem errorFromPins_mono {s t : State E} (hresult : t.result = s.result) (htrace : s.trace <:+ t.trace) (h : ErrorFromPins s) :
    ErrorFromPins t := by
  intro e he
  obtain ⟨n, b, hmem⟩ := h e (hresult ▸ he)
  exact ⟨n, b, htrace.subset hmem⟩

theorem errorFromPins_ok {t : State E} (hresult : t.result = .ok) : ErrorFromPins t := by
  intro e he
  rw [hresult] at he; cases he

/-- A result that is the outcome of a list of micro-events. -/
theorem errorFromPins_runEvents {evs : List Event} {s t : State E} (hresult : t.result = resultOf (runEvents evs s).2)
    (htrace : t.trace = (runEvents evs s).1.trace) : ErrorFromPins t := by
  intro e he
  rw [hresult, resultOf_eq_fail] at he
  rw [htrace]
  exact failure_mem_trace he

/-- Settles O55: each end of a command or of a reset reports the failure of its own events, whose entry is in the trace. -/
theorem stepKeepsErrorFromPins : Obligations.StepKeepsErrorFromPins := by
  intro s t h hstep
  have hgrows : ∀ ev p, ErrorFromPins (atPos p (issue ev s).1) := fun ev p =>
    errorFromPins_mono (issue_only_bus ev s).result (by obtain ⟨x, hx⟩ := issue_trace ev s; exact ⟨[x], hx.symm⟩) h
  have hfails : ∀ ev e t', (issue ev s).2 = some e → t'.result = .fail e → t'.trace = (issue ev s).1.trace →
      ErrorFromPins t' := by
    intro ev e t' he hresult htrace e' he'
    obtain ⟨n, b, -, -, hentry⟩ := issue_failure he
    rw [hresult] at he'; cases he'
    exact ⟨n, b, by rw [htrace, hentry]; exact .head _⟩
  have hdrop : ErrorFromPins (dropMove s) := h
  rcases step_cases s t hstep with ⟨i, k, j, q, ev, -, -, -, -, -, ⟨e, he, rfl⟩ | ⟨-, rfl⟩⟩ |
    ⟨r, ev, -, -, -, ⟨e, he, rfl⟩ | ⟨-, rfl⟩⟩ | ⟨hb, -⟩
  · exact hfails ev e _ he rfl rfl
  · rcases advance_cases (plan i).length k j (issue ev s).1 with ⟨k', j', hadv⟩ | hadv <;> rw [hadv]
    · exact hgrows ev _
    · exact errorFromPins_ok rfl
  · exact hfails ev e _ he rfl rfl
  · rcases advanceReset_cases r (issue ev s).1 with ⟨-, hadv⟩ | ⟨-, hadv⟩ <;> rw [hadv]
    · exact hgrows ev _
    · exact errorFromPins_ok rfl
  · rcases hostStep_cases hb hstep with rfl | ⟨i, -, -, rfl | rfl⟩ | (rfl | rfl) | ⟨-, -, evs, rfl⟩
    · exact hdrop
    · exact hdrop
    · exact errorFromPins_runEvents (evs := planEvents (plan i)) rfl rfl
    · exact hdrop
    · exact errorFromPins_runEvents (evs := inactiveEvents) rfl rfl
    · exact errorFromPins_mono (runEvents_only_bus evs (dropMove s)).result (runEvents_trace_suffix evs _) hdrop

/-! ### Ends of a reset -/

theorem inactive_is_control {n : Line} {b : Bool} (h : .pinSet n b ∈ inactiveEvents) : n.isControl = true ∧ b = false := by
  simp only [inactiveEvents, List.mem_cons, Event.pinSet.injEq, List.not_mem_nil, or_false] at h
  rcases h with ⟨rfl, rfl⟩ | ⟨rfl, rfl⟩ <;> exact ⟨rfl, rfl⟩

/-- A reset run to its end: IDLE and OK with the bus in `Inactive`, or DEAD and FAIL with an unknown mode (R179, R201). -/
theorem runReset_outcome (s : State E) :
    ((runReset s).run = .idle ∧ (runReset s).mode = .inactive) ∨
    ((runReset s).run = .dead ∧ (runReset s).mode = .unknown ∧ ∃ e, (runReset s).result = .fail e) := by
  rcases runEvents_cases inactiveEvents (beginReset s) with ⟨hok, hnone⟩ | ⟨pre, n, b, post, e, hevs, he, hfail⟩
  · obtain ⟨-, hlines, -⟩ := runEvents_ok inactiveEvents (beginReset s) hok
    refine .inl ⟨by simp [runReset, hnone], ?_⟩
    simp only [runReset, State.mode, endReset_lines, hlines]
    rfl
  · have hn := (inactive_is_control (n := n) (b := b) (by simp [hevs])).1
    refine .inr ⟨by simp [runReset, he], ?_, e, by simp [runReset, he, resultOf]⟩
    simp only [runReset, State.mode, endReset_lines, hfail.lines, mode_set_control_x hn]

theorem outcomeOk_of_run {t : State E} (hoff : t.run ≠ .off) (hdead : t.run ≠ .dead) : OutcomeOk t :=
  ⟨fun h => absurd h hoff, fun h => absurd h hdead⟩

theorem outcomeOk_dead {t : State E} {e : E} (hrun : t.run = .dead) (hmode : t.mode = .unknown) (hresult : t.result = .fail e) :
    OutcomeOk t :=
  ⟨fun h => absurd (hrun.symm.trans h) (by decide), fun _ => ⟨hmode, e, hresult⟩⟩

/-- Settles O54: only the end of a reset enters DEAD, and nothing enters OFF. -/
theorem stepKeepsOutcome : Obligations.StepKeepsOutcome := by
  intro s t h hstep
  have hdrop : OutcomeOk (dropMove s) := h
  rcases step_cases s t hstep with ⟨i, k, j, q, ev, hrun, -, -, -, -, ⟨e, he, rfl⟩ | ⟨-, rfl⟩⟩ |
    ⟨r, ev, hrun, -, hev, ⟨e, he, rfl⟩ | ⟨-, rfl⟩⟩ | ⟨hb, -⟩
  · exact outcomeOk_of_run (by simp) (by simp)
  · have hbusy : (issue ev s).1.run = .busy := (issue_only_bus ev s).run.trans hrun
    rcases advance_cases (plan i).length k j (issue ev s).1 with ⟨k', j', hadv⟩ | hadv <;> rw [hadv]
    · exact outcomeOk_of_run (by simp [atPos, hbusy]) (by simp [atPos, hbusy])
    · exact outcomeOk_of_run (by simp) (by simp)
  · obtain ⟨n, b, rfl, hlines, -⟩ := issue_failure he
    have hn := (inactive_is_control (List.mem_of_getElem? hev)).1
    refine outcomeOk_dead (e := e) rfl ?_ rfl
    rw [State.mode, endReset_lines, hlines, mode_set_control_x hn]
  · have hresetting : (issue ev s).1.run = .resetting := (issue_only_bus ev s).run.trans hrun
    rcases advanceReset_cases r (issue ev s).1 with ⟨-, hadv⟩ | ⟨-, hadv⟩ <;> rw [hadv]
    · exact outcomeOk_of_run (by simp [atPos, hresetting]) (by simp [atPos, hresetting])
    · exact outcomeOk_of_run (by simp) (by simp)
  · rcases hostStep_cases hb hstep with rfl | ⟨i, -, -, rfl | rfl⟩ | (rfl | rfl) | ⟨hidle, -, evs, rfl⟩
    · exact hdrop
    · exact outcomeOk_of_run (by simp) (by simp)
    · exact outcomeOk_of_run (by simp [runAccepted]) (by simp [runAccepted])
    · exact outcomeOk_of_run (by simp) (by simp)
    · rcases runReset_outcome (dropMove s) with ⟨hrun, -⟩ | ⟨hrun, hmode, e, hresult⟩
      · exact outcomeOk_of_run (by simp [hrun]) (by simp [hrun])
      · exact outcomeOk_dead hrun hmode hresult
    · have hrun : (runEvents evs (dropMove s)).1.run = .idle := (runEvents_only_bus evs (dropMove s)).run.trans hidle
      exact outcomeOk_of_run (by simp [hrun]) (by simp [hrun])

/-! ### The position -/

/-- When nothing runs, latch and position have no value (R37). -/
theorem positionOk_of_not_busy {s : State E} (hb : s.busy = false) : PositionOk s ↔ s.cmd = none ∧ s.pos = .noValue := by
  cases hrun : s.run <;> simp_all [PositionOk, State.busy]

theorem positionOk_busy {s : State E} {i : Instr} {k j : Nat} {q : Pair} (hrun : s.run = .busy) (hcmd : s.cmd = some i)
    (hpos : s.pos = .step k j) (hq : (plan i)[k]? = some q) :
    PositionOk s ↔ j < 28 ∧ ControlAt j s.lines ∧ DataAt q.1 q.2 j s.lines := by
  rw [PositionOk, hrun]
  constructor
  · rintro ⟨i', k', j', q', hcmd', hpos', hq', h⟩
    obtain rfl : i' = i := by simpa [hcmd'] using hcmd
    obtain ⟨rfl, rfl⟩ : k' = k ∧ j' = j := by simpa [hpos'] using hpos
    obtain rfl : q' = q := by simpa [hq'] using hq
    exact h
  · exact fun h => ⟨i, k, j, q, hcmd, hpos, hq, h⟩

theorem positionOk_resetting {s : State E} {r : Nat} (hrun : s.run = .resetting) (hpos : s.pos = .resetStep r) :
    PositionOk s ↔ r < 2 ∧ (r = 1 → s.lines.bdir = .low) := by
  simp [PositionOk, hrun, hpos]

/-- A move of the host is never a micro-event. -/
theorem takeMove_ne_microEvent (m : HostMove) (s : State E) : takeMove m s ≠ .microEvent := by
  rcases takeMove_returning .none m s with ⟨i, h, -⟩ | ⟨i, h, -⟩ | ⟨h, -⟩ | ⟨h, -⟩ <;> simp [h]

/-- When nothing runs, a step answers a next state: every operation does. -/
theorem step_goes_on_of_not_busy {s : State} (hb : s.busy = false) : ∃ t, step s = .next t := by
  have hexec : ∀ i u, ∃ t, exec i u = .next t := fun i u => by
    obtain ⟨t, ht, -⟩ := frameOfEveryOperation i u
    exact ⟨t, ht⟩
  have hfetch : fetch s ≠ .microEvent := by
    unfold fetch
    rw [hb]
    cases s.env.agenda with
    | nil => simp
    | cons m rest => exact takeMove_ne_microEvent m _
  unfold step stepBy
  cases h : fetch s with
  | microEvent => exact absurd h hfetch
  | nothing u => exact ⟨_, rfl⟩
  | run i u => exact hexec i u
  | accepted i u => exact ⟨_, rfl⟩
  | resetRequested u => exact ⟨_, rfl⟩

/-- A micro-event of a running command leads to the next row of the table, or to the end (R29, R125). -/
theorem busyStep_keeps_position {s : State E} {i : Instr} {k j : Nat} {q : Pair} (hrun : s.run = .busy) (hcmd : s.cmd = some i)
    (hq : (plan i)[k]? = some q) (hj : j < 28) (hcontrol : ControlAt j s.lines) (hdata : DataAt q.1 q.2 j s.lines) :
    ∃ t, busyStep i k j s = .next t ∧ PositionOk t := by
  have hev : (txnEvents q.1 q.2)[j]? = some (txnEvents q.1 q.2)[j] := List.getElem?_eq_getElem hj
  generalize (txnEvents q.1 q.2)[j] = ev at hev
  cases hfail : (issue ev s).2 with
  | some e => exact ⟨_, busyStep_fails hq hev hfail, rfl, rfl⟩
  | none =>
    refine ⟨_, busyStep_goes_on hq hev hfail, ?_⟩
    have hbus := issue_only_bus ev s
    have hlines := issue_success_lines hfail
    by_cases hlast : j < 27
    · rw [advance_step hlast]
      refine (positionOk_busy (s := atPos (.step k (j + 1)) _) (hbus.run.trans hrun) (hbus.cmd.trans hcmd) rfl hq).mpr
        ⟨by omega, ?_, ?_⟩
      · exact hlines ▸ controlAt_succ hev hcontrol
      · exact hlines ▸ dataAt_succ hev hdata
    · obtain rfl : j = 27 := by omega
      by_cases hk : k + 1 < (plan i).length
      · rw [advance_transaction hk]
        exact (positionOk_busy (s := atPos (.step (k + 1) 0) _) (hbus.run.trans hrun) (hbus.cmd.trans hcmd) rfl
          (List.getElem?_eq_getElem hk)).mpr ⟨by omega, controlAt_zero _, dataAt_zero _ _ _⟩
      · rw [advance_end (by omega)]
        exact ⟨rfl, rfl⟩

theorem positionOk_endReset (f : Option E) (s : State E) : PositionOk (endReset f s) := by
  cases f <;> exact ⟨rfl, rfl⟩

/-- A pin set of the reset leads to the second one with BDIR low, or to the end (R201). -/
theorem resettingStep_keeps_position {s : State E} {r : Nat} (hrun : s.run = .resetting) (hr : r < 2) :
    ∃ t, resettingStep r s = .next t ∧ PositionOk t := by
  have hlen : r < inactiveEvents.length := hr
  obtain ⟨ev, hev⟩ : ∃ ev, inactiveEvents[r]? = some ev := ⟨_, List.getElem?_eq_getElem hlen⟩
  cases hfail : (issue ev s).2 with
  | some e => exact ⟨_, resettingStep_fails hev hfail, positionOk_endReset _ _⟩
  | none =>
    refine ⟨_, resettingStep_goes_on hev hfail, ?_⟩
    rcases advanceReset_cases r (issue ev s).1 with ⟨hnext, hadv⟩ | ⟨-, hadv⟩ <;> rw [hadv]
    · obtain rfl : r = 0 := by omega
      cases hev
      refine (positionOk_resetting (s := atPos (.resetStep 1) _) ((issue_only_bus _ s).run.trans hrun) rfl).mpr ⟨hnext, fun _ => ?_⟩
      exact congrArg Lines.bdir (issue_success_lines hfail)
    · exact positionOk_endReset _ _

/-- A move of the host finds latch and position without a value and leaves them so, or at the start of what it begins. -/
theorem hostStep_keeps_position {s t : State} (hb : s.busy = false) (h : PositionOk s) (hstep : step s = .next t) :
    PositionOk t := by
  rw [positionOk_of_not_busy hb] at h
  rcases hostStep_cases hb hstep with rfl | ⟨i, hc, -, rfl | rfl⟩ | (rfl | rfl) | ⟨-, -, evs, rfl⟩
  · exact (positionOk_of_not_busy (s := dropMove s) hb).mpr h
  · rw [positionOk_busy (k := 0) rfl rfl rfl (List.getElem?_eq_getElem (isCommand_length_pos hc))]
    exact ⟨by omega, controlAt_zero _, dataAt_zero _ _ _⟩
  · exact ⟨rfl, rfl⟩
  · exact (positionOk_resetting (r := 0) rfl rfl).mpr ⟨by omega, by omega⟩
  · exact positionOk_endReset _ _
  · have hbus := runEvents_only_bus evs (dropMove s)
    rw [positionOk_of_not_busy (by simpa [State.busy, hbus.run] using hb)]
    exact ⟨hbus.cmd.trans h.1, hbus.pos.trans h.2⟩

/-- Settles O50: by the run state, which says what the position names. -/
theorem stepGoesOnAndKeepsPosition : Obligations.StepGoesOnAndKeepsPosition := by
  intro s h
  have hquiet : s.busy = false → ∃ t, step s = .next t ∧ PositionOk t := fun hb => by
    obtain ⟨t, ht⟩ := step_goes_on_of_not_busy hb
    exact ⟨t, ht, hostStep_keeps_position hb h ht⟩
  cases hrun : s.run with
  | busy =>
    have hbusy := h
    rw [PositionOk, hrun] at hbusy
    obtain ⟨i, k, j, q, hcmd, hpos, hq, hj, hcontrol, hdata⟩ := hbusy
    rw [step_busy s i k j hrun hcmd hpos]
    exact busyStep_keeps_position hrun hcmd hq hj hcontrol hdata
  | resetting =>
    have hresetting := h
    rw [PositionOk, hrun] at hresetting
    obtain ⟨r, hpos, hr, -⟩ := hresetting
    rw [step_resetting hrun hpos]
    exact resettingStep_keeps_position hrun hr
  | off | dead | idle => exact hquiet (by simp [State.busy, hrun])

/-! ### The bus after success -/

/-- A command that ended OK has the bus in `Inactive` (R124, R140). -/
theorem runAccepted_inactive {i : Instr} (hc : isCommand i = true) {s : State E} (h : (runAccepted i s).result = .ok) :
    (runAccepted i s).mode = .inactive := by
  have hok := answersOk_of_runEvents (resultOf_eq_ok.mp h)
  rcases List.eq_nil_or_concat (plan i) with hnil | ⟨p, q, hplan⟩
  · exact absurd hc (by simp [isCommand, hnil])
  · rw [List.concat_eq_append] at hplan
    rw [pinCount_plan] at hok
    obtain ⟨hended, -⟩ := runAccepted_ok i p q s hplan hok
    rw [State.mode, hended.lines, quietLines_mode]

theorem hostDriven_of_agenda {s t : State} (h : t.env.agenda = s.env.agenda) (hs : HostDriven s) : HostDriven t := by
  rw [HostDriven, h]
  exact hs

theorem hostDriven_dropMove {s : State} (hs : HostDriven s) : HostDriven (dropMove s) :=
  fun m hm => hs m (List.mem_of_mem_tail hm)

/-- After the last event of a transaction, a wait, the bus is in `Inactive` (R125). -/
theorem last_event_inactive {a v : Byte} {ev : Event} {s : State E} (hev : (txnEvents a v)[27]? = some ev)
    (hcontrol : ControlAt 27 s.lines) : (issue ev s).1.mode = .inactive := by
  obtain ⟨-, -, -, -, -, hlow⟩ := hcontrol
  obtain ⟨hbdir, hbc1⟩ := hlow (by omega)
  cases hev
  simp [State.mode, issue, Lines.mode, hbdir, hbc1, busMode]

/-- After the second set of a reset, answered Ok with BDIR low, the bus is in `Inactive` (R201). -/
theorem second_set_inactive {s : State E} (hlow : s.lines.bdir = .low) (hok : (issue (.pinSet .bc1 false) s).2 = none) :
    (issue (.pinSet .bc1 false) s).1.mode = .inactive := by
  rw [State.mode, issue_success_lines hok]
  simp [Lines.mode, linesAfter, Lines.set, hlow, busMode, Level.ofBool]

/-- Settles O53: OK is written after a command's last wait and after a reset's second set, where the bus is in `Inactive`. -/
theorem stepKeepsInactiveAfterOk : Obligations.StepKeepsInactiveAfterOk := by
  intro s t hpos hhost h hstep
  have hrunning : ∀ {t : State}, t.run ≠ .idle → InactiveAfterOk t := fun hrun hidle => absurd hidle hrun
  have hfailed : ∀ {t : State} {e : ErrVal}, t.result = .fail e → InactiveAfterOk t := fun hfail _ hok => by
    rw [hfail] at hok; cases hok
  have hinactive : ∀ {t : State}, t.mode = .inactive → InactiveAfterOk t := fun hmode _ _ => hmode
  have hissue : ∀ ev, HostDriven (issue ev s).1 := fun ev => hostDriven_of_agenda (issue_only_bus ev s).agenda hhost
  have hdrop : HostDriven (dropMove s) := hostDriven_dropMove hhost
  have hruns : ∀ evs (u : State), HostDriven u → HostDriven (runEvents evs u).1 := fun evs u hu =>
    hostDriven_of_agenda (runEvents_only_bus evs u).agenda hu
  rcases step_cases s t hstep with ⟨i, k, j, q, ev, hrun, hcmd, hpos', hq, hev, ⟨e, he, rfl⟩ | ⟨hok, rfl⟩⟩ |
    ⟨r, ev, hrun, hpos', hev, ⟨e, he, rfl⟩ | ⟨hok, rfl⟩⟩ | ⟨hb, -⟩
  · exact ⟨hissue ev, hfailed rfl⟩
  · have hbusy : (issue ev s).1.run ≠ .idle := by simp [(issue_only_bus ev s).run, hrun]
    obtain ⟨hj, hcontrol, -⟩ := (positionOk_busy hrun hcmd hpos' hq).mp hpos
    by_cases hlast : j < 27
    · rw [advance_step hlast]
      exact ⟨hissue ev, hrunning hbusy⟩
    · obtain rfl : j = 27 := by omega
      by_cases hk : k + 1 < (plan i).length
      · rw [advance_transaction hk]
        exact ⟨hissue ev, hrunning hbusy⟩
      · rw [advance_end (by omega)]
        exact ⟨hissue ev, hinactive (last_event_inactive hev hcontrol)⟩
  · exact ⟨hissue ev, hfailed rfl⟩
  · have hresetting : (issue ev s).1.run ≠ .idle := by simp [(issue_only_bus ev s).run, hrun]
    obtain ⟨hr, hlow⟩ := (positionOk_resetting hrun hpos').mp hpos
    rcases advanceReset_cases r (issue ev s).1 with ⟨-, hadv⟩ | ⟨hend, hadv⟩ <;> rw [hadv]
    · exact ⟨hissue ev, hrunning hresetting⟩
    · obtain rfl : r = 1 := by omega
      cases hev
      exact ⟨hissue _, hinactive (second_set_inactive (hlow rfl) hok)⟩
  · rcases hostStep_cases hb hstep with rfl | ⟨i, hc, -, rfl | rfl⟩ | (rfl | rfl) | ⟨-, ⟨m, hm, hforeign⟩, -⟩
    · exact ⟨hdrop, h⟩
    · exact ⟨hdrop, hrunning (by simp)⟩
    · exact ⟨hruns _ (accept i (dropMove s)) hdrop, fun _ hok => runAccepted_inactive hc hok⟩
    · exact ⟨hdrop, hrunning (by simp)⟩
    · refine ⟨hruns _ (beginReset (dropMove s)) hdrop, ?_⟩
      rcases runReset_outcome (dropMove s) with ⟨-, hmode⟩ | ⟨-, -, e, hresult⟩
      · exact hinactive hmode
      · exact hfailed hresult
    · exact absurd (hhost m hm) (by simp [hforeign])

/-- Settles O47: each running step of `step_cases` is one micro-event and the move of the position, or the end. -/
theorem runningStepIssuesOneMicroEvent : Obligations.RunningStepIssuesOneMicroEvent := by
  intro s t hb hstep
  rcases step_cases s t hstep with ⟨i, k, j, q, ev, hrun, hcmd, -, -, -, ⟨e, -, rfl⟩ | ⟨-, rfl⟩⟩ |
    ⟨r, ev, hrun, -, -, ⟨e, -, rfl⟩ | ⟨-, rfl⟩⟩ | ⟨hb', -⟩
  · exact ⟨issue_trace ev s, fun _ => .inr rfl, by simp [hrun]⟩
  · have hbus := issue_only_bus ev s
    rcases advance_cases (plan i).length k j (issue ev s).1 with ⟨k', j', hadv⟩ | hadv <;> rw [hadv]
    · exact ⟨issue_trace ev s, fun _ => .inl ⟨hbus.run.trans hrun, hbus.cmd⟩, by simp [hrun]⟩
    · exact ⟨issue_trace ev s, fun _ => .inr rfl, by simp [hrun]⟩
  · exact ⟨issue_trace ev s, by simp [hrun], fun _ => .inr (.inr rfl)⟩
  · rcases advanceReset_cases r (issue ev s).1 with ⟨-, hadv⟩ | ⟨-, hadv⟩ <;> rw [hadv]
    · exact ⟨issue_trace ev s, by simp [hrun], fun _ => .inl ((issue_only_bus ev s).run.trans hrun)⟩
    · exact ⟨issue_trace ev s, by simp [hrun], fun _ => .inr (.inl rfl)⟩
  · rw [hb] at hb'; cases hb'

/-! ### Where the invariants start -/

/-- Settles O56: both states are written out, and no invariant but the sync reads the environment. -/
theorem resetMeetsTheInvariants : Obligations.ResetMeetsTheInvariants := by
  refine ⟨?_, rfl, rfl, rfl⟩
  rintro s env (rfl | rfl)
  · exact ⟨⟨rfl, rfl⟩, rfl, fun n => by cases n <;> rfl, fun hidle => (by cases hidle),
      ⟨fun _ => rfl, fun hdead => by cases hdead⟩, fun e he => (by cases he), rfl⟩
  · exact ⟨⟨rfl, rfl⟩, rfl, fun n => by cases n <;> rfl, fun _ _ => rfl,
      outcomeOk_of_run (by simp [State.reset]) (by simp [State.reset]), errorFromPins_ok rfl, rfl⟩

end Sys2Proof.Proofs
end

section
/-! PROOFS. The reset (70_reset_and_hazards.md section 1, 60_exceptions.md R179), and the steps by which the host's moves are taken
(30_encoding.md section 3). -/

namespace Sys2Proof.Proofs

open Sys2Proof
open Sys2Proof.Config
open Sys2Proof.Machine
open Sys2Proof.Safety
open Sys2Proof.Laws

variable {E : Type}

/-! ### The reset sequence -/

theorem linesAfter_inactive (l : Lines) : linesAfter inactiveEvents l = { l with bdir := .low, bc1 := .low } := rfl

theorem runReset_fail {pre post : List Event} {n : Line} {b : Bool} {s : State E} {e : E}
    (hsplit : inactiveEvents = pre ++ .pinSet n b :: post) (hok : answersOk (pinCount pre) s.env.pins = true)
    (herr : (s.env.pins.drop (pinCount pre)).head = .err e) :
    runReset s = endReset (some e) (pinSet n b (runEvents pre (beginReset s)).1).1 := by
  simp only [runReset, hsplit, runEvents_fail pre n b post (beginReset s) e hok herr]

/-- What leaving a mode does to the registers, and what to the latch (R68, R69). -/
theorem chipAfterLeaving_regs (s : State E) : (chipAfterLeaving s).regs =
    if s.mode = .write ∧ responds s = true then (commit s.env.addrDecode s.chip s.lines.dataByte).regs else s.chip.regs := by
  unfold chipAfterLeaving
  by_cases haddress : s.mode = .addressLatch ∧ responds s = true
  · rw [if_pos haddress, if_neg (by simp [haddress.1])]
  · rw [if_neg haddress]
    split <;> rfl

theorem chipAfterLeaving_al (s : State E) : (chipAfterLeaving s).al =
    if s.mode = .addressLatch ∧ responds s = true then s.lines.dataByte else s.chip.al := by
  unfold chipAfterLeaving
  split
  · rfl
  · split
    · exact commit_al ..
    · rfl

/-- Settles O37: `enter_inactive_mode` answered Ok, then the end of a reset. -/
theorem resetCompletes : Obligations.ResetCompletes := by
  intro s hrun hok
  obtain ⟨hnone, hlines, htrace, hpins⟩ := runEvents_ok inactiveEvents (beginReset s) hok
  have hchip : (runReset s).chip = chipAfterLeaving s := inactive_chip (beginReset s) hok
  have hbus := runEvents_only_bus inactiveEvents (beginReset s)
  refine ⟨_, reset_exec s hrun, by simp [runReset, hnone], by simp [runReset, hnone, resultOf], ?_, rfl, rfl, ?_, htrace, hpins,
    runEvents_engineReturn inactiveEvents (beginReset s), hbus.addrDecode, hbus.agenda, ?_, ?_⟩
  · rw [State.mode, runReset, endReset_lines, hlines, linesAfter_inactive]; rfl
  · exact hlines
  · rw [hchip, chipAfterLeaving_regs]
  · rw [hchip, chipAfterLeaving_al]

/-- What every failing reset leaves (R179). -/
theorem reset_fails_at {pre post : List Event} {n : Line} {b : Bool} {s : State} {e : ErrVal}
    (hrun : s.run = .off ∨ s.run = .dead ∨ s.run = .idle) (hsplit : inactiveEvents = pre ++ .pinSet n b :: post)
    (hok : answersOk (pinCount pre) s.env.pins = true) (herr : (s.env.pins.drop (pinCount pre)).head = .err e) :
    ∃ t, exec .reset s = .next t ∧ t = endReset (some e) (pinSet n b (runEvents pre (beginReset s)).1).1 ∧
      FailedAt pre n b e s t ∧ t.run = .dead ∧ t.result = .fail e ∧ t.mode = .unknown ∧ t.engineReturn = s.engineReturn ∧
      t.env.addrDecode = s.env.addrDecode ∧ t.env.agenda = s.env.agenda := by
  have hfail := pinSet_failedAt (s := beginReset s) n b hok herr
  have hbus := runEvents_only_bus pre (beginReset s)
  have hn := (inactive_is_control (n := n) (b := b) (by simp [hsplit])).1
  refine ⟨_, reset_exec s hrun, runReset_fail hsplit hok herr, ?_⟩
  rw [runReset_fail hsplit hok herr]
  refine ⟨⟨hfail.lines, hfail.trace, hfail.pins⟩, rfl, rfl, ?_, runEvents_engineReturn pre (beginReset s), hbus.addrDecode,
    hbus.agenda⟩
  rw [State.mode, endReset_lines, hfail.lines, mode_set_control_x hn]

/-- Settles O38: the first set fails, or the second. -/
theorem resetFails : Obligations.ResetFails := by
  intro s e hrun
  refine ⟨fun herr => ?_, fun hfirst herr => ?_⟩
  · obtain ⟨t, hexec, ht, hfail, hdead, hresult, hmode, hreturn, hdec, hagenda⟩ :=
      reset_fails_at (pre := []) (n := .bdir) (b := false) hrun rfl rfl herr
    have hchip : t.chip = Chip.lost := by rw [ht]; exact bdir_fail false (beginReset s) e herr
    exact ⟨t, hexec, hdead, hresult, hmode, hfail.lines, hfail.trace, hfail.pins, hchip, by rw [ht]; rfl, by rw [ht]; rfl, hreturn,
      hdec, hagenda⟩
  · obtain ⟨t, hexec, ht, hfail, hdead, hresult, hmode, hreturn, hdec, hagenda⟩ :=
      reset_fails_at (pre := [.pinSet .bdir false]) (n := .bc1) (b := false) hrun rfl (answersOk_one hfirst) herr
    have hchip : t.chip = chipAfterLeaving s := by
      have hset : runEvents [.pinSet .bdir false] (beginReset s) = _ := runEvents_set_ok hfirst
      rw [ht, hset]
      exact entry_second_fails (s := beginReset s) hfirst herr
    exact ⟨t, hexec, hdead, hresult, hmode, hfail.lines, hfail.trace, hfail.pins, hchip, by rw [ht]; rfl, by rw [ht]; rfl, hreturn,
      hdec, hagenda⟩

/-- Settles O39: the request has no move while BUSY or RESETTING. -/
theorem resetNotHonouredWhileRunning : Obligations.ResetNotHonouredWhileRunning := by
  intro s hrun
  have htakes : s.takesReset = false := by rcases hrun with h | h <;> simp [State.takesReset, State.busy, h]
  exact requestReset_not_honoured htakes

/-- Settles O40: from unknown control levels the two sets make no exit, so that no transient choice is taken. -/
theorem stateResetIsPowerOnThenReset : Obligations.StateResetIsPowerOnThenReset := by
  intro env hok
  obtain ⟨hfirst, hsecond⟩ := answersOk_two hok
  have hsecond' : env.pins.tail.head = .ok := hsecond
  rw [reset_exec _ (.inl rfl), runReset, inactiveEvents, runEvents_two_ok _ _ _ _ _ hok]
  simp only [pinSet, observe_pins, beginReset, hfirst, hsecond']
  rfl

/-! ### Moves of the host -/

/-- A state with its host move taken off. -/
def withAgenda (rest : List HostMove) (s : State E) : State E := { s with env := { s.env with agenda := rest } }

/-- When nothing runs, what a step does is the host's next move. -/
theorem fetch_move {s : State E} {m : HostMove} {rest : List HostMove} (hb : s.busy = false) (h : s.env.agenda = m :: rest) :
    fetch s = takeMove m (withAgenda rest s) := by
  have hdrop : dropMove s = withAgenda rest s := by rw [dropMove, h]; rfl
  simp only [fetch, hb, h, hdrop]
  rfl

theorem step_of_nothing {s u : State} (h : fetch s = .nothing u) : step s = .next u := by rw [step, stepBy, h]
theorem step_of_run {s u : State} {i : Instr} (h : fetch s = .run i u) : step s = exec i u := by rw [step, stepBy, h]
theorem step_of_accepted {s u : State} {i : Instr} (h : fetch s = .accepted i u) : step s = .next (accept i u) := by
  rw [step, stepBy, h]
theorem step_of_resetRequested {s u : State} (h : fetch s = .resetRequested u) : step s = .next (beginReset u) := by
  rw [step, stepBy, h]

theorem seen_of_idle (e : Encoded) {s : State E} (h : s.run = .idle) : seen e s = true := by
  cases e <;> simp [seen, State.ready, State.takesReset, State.busy, h]

theorem busy_of_idle {s : State E} (h : s.run = .idle) : s.busy = false := by
  simp [State.busy, h]

/-- Settles O41: when IDLE every word is seen. -/
theorem stepRunsTheDecodedOperation : Obligations.StepRunsTheDecodedOperation := by
  intro s e rest i hidle hagenda hdecode
  have hseen := seen_of_idle e (s := withAgenda rest s) hidle
  refine step_of_run ?_
  rw [fetch_move (busy_of_idle hidle) hagenda, takeMove, if_pos hseen, hdecode]
  rfl

/-- Settles O43: when IDLE the word is seen, and the decoder refuses it. -/
theorem reservedWordChangesNothing : Obligations.ReservedWordChangesNothing := by
  intro s w rest r hidle hdecode hagenda
  have hseen := seen_of_idle (.cmd32 w) (s := withAgenda rest s) hidle
  refine step_of_nothing ?_
  rcases hagenda with hagenda | hagenda <;>
    rw [fetch_move (busy_of_idle hidle) hagenda, takeMove, if_pos hseen, hdecode] <;> rfl

/-- Settles O44: when IDLE the word is seen, and it decodes. -/
theorem presentedCommandIsAccepted : Obligations.PresentedCommandIsAccepted := by
  intro s w rest i hidle hagenda hdecode
  have hseen := seen_of_idle (.cmd32 w) (s := withAgenda rest s) hidle
  refine step_of_accepted (u := withAgenda rest s) ?_
  rw [fetch_move (busy_of_idle hidle) hagenda, takeMove, if_pos hseen, hdecode]

/-- Settles O45: the move is taken off, and nothing else. -/
theorem releaseIssuesNothing : Obligations.ReleaseIssuesNothing := fun _ _ hb hagenda =>
  step_of_nothing (fetch_move hb hagenda)

/-- In OFF and DEAD only the reset line is seen, and only the request asserted (R90, R200). -/
theorem takeMove_call_of_off_or_dead (e : Encoded) {s : State E} (h : s.run = .off ∨ s.run = .dead) :
    takeMove (.call e) s = if e = .req1 1 then .run .reset s else .nothing s := by
  have htakes : s.takesReset = true := by rcases h with h | h <;> simp [State.takesReset, State.busy, h]
  have hready : s.ready = false := by rcases h with h | h <;> simp [State.ready, h]
  cases e with
  | req1 w => by_cases hw : w = 1#1 <;> simp [takeMove, seen, htakes, decode, hw]
  | cmd32 | ctrl2 | data8 | txn16 => simp [takeMove, seen, hready]

theorem takeMove_present_of_off_or_dead (w : BitVec 32) {s : State E} (h : s.run = .off ∨ s.run = .dead) :
    takeMove (.present w) s = .nothing s := by
  have hready : s.ready = false := by rcases h with h | h <;> simp [State.ready, h]
  simp [takeMove, seen, hready]

/-- Settles O42: each move by what `takeMove` makes of it. -/
theorem offAndDeadTakeOnlyReset : Obligations.OffAndDeadTakeOnlyReset := by
  intro s m rest hagenda
  refine ⟨fun hrun => ?_, fun hrun hm => ?_⟩
  · have hb : s.busy = false := by rcases hrun with h | h <;> simp [State.busy, h]
    have hfetch := fetch_move hb hagenda
    refine ⟨fun e hm => ?_, fun w hm => ?_, fun hm => ?_⟩ <;> subst hm
    · rw [takeMove_call_of_off_or_dead (s := withAgenda rest s) e hrun] at hfetch
      split at hfetch
      · next he => exact (step_of_run hfetch).trans (if_pos he).symm
      · next he => exact (step_of_nothing hfetch).trans (if_neg he).symm
    · exact step_of_nothing (hfetch.trans (takeMove_present_of_off_or_dead (s := withAgenda rest s) w hrun))
    · exact step_of_nothing hfetch
  · have hb : s.busy = false := by rcases hrun with h | h | h <;> simp [State.busy, h]
    have htakes : (withAgenda rest s).takesReset = true := congrArg (!·) hb
    subst hm
    exact step_of_resetRequested ((fetch_move hb hagenda).trans (if_pos htakes))

end Sys2Proof.Proofs
end

section
/-! PROOFS. Two runs side by side: a relation between states that micro-events and the sequencer's own writes respect is respected by
every step. Renaming error values is one (10_state.md R31), agreement but for the chip another (20_memory.md section 5). -/

namespace Sys2Proof.Proofs

open Sys2Proof
open Sys2Proof.Config
open Sys2Proof.Machine
open Sys2Proof.Safety
open Sys2Proof.Laws

variable {A B : Type}

/-! ### Related micro-events -/

/-- A relation that micro-events respect, with failures renamed by `f`. -/
def EventsRespect (f : A → B) (R : State A → State B → Prop) : Prop :=
  ∀ ev {s : State A} {t : State B}, R s t → R (issue ev s).1 (issue ev t).1 ∧ (issue ev t).2 = (issue ev s).2.map f

theorem EventsRespect.runEvents {f : A → B} {R : State A → State B → Prop} (h : EventsRespect f R) (evs : List Event)
    {s : State A} {t : State B} (hst : R s t) :
    R (runEvents evs s).1 (runEvents evs t).1 ∧ (runEvents evs t).2 = (runEvents evs s).2.map f := by
  induction evs generalizing s t with
  | nil => exact ⟨hst, rfl⟩
  | cons ev evs ih =>
    obtain ⟨hnext, hfail⟩ := h ev hst
    rw [runEvents_cons, runEvents_cons]
    rcases hs : issue ev s with ⟨s1, _ | e⟩ <;> rw [hs] at hnext hfail
    · have ht : issue ev t = ((issue ev t).1, none) := Prod.ext rfl hfail
      rw [ht]
      exact ih hnext
    · have ht : issue ev t = ((issue ev t).1, some (f e)) := Prod.ext rfl hfail
      rw [ht]
      exact ⟨hnext, rfl⟩

/-! ### Related steps -/

/-- A relation that micro-events respect, that fixes what decides the next move, and that the sequencer's own writes respect. -/
structure StepsRespect (f : A → B) (R : State A → State B → Prop) : Prop where
  events : EventsRespect f R
  run_eq : ∀ {s t}, R s t → t.run = s.run
  cmd_eq : ∀ {s t}, R s t → t.cmd = s.cmd
  pos_eq : ∀ {s t}, R s t → t.pos = s.pos
  agenda_eq : ∀ {s t}, R s t → t.env.agenda = s.env.agenda
  atPos : ∀ p {s t}, R s t → R (atPos p s) (atPos p t)
  accept : ∀ i {s t}, R s t → R (accept i s) (accept i t)
  beginReset : ∀ {s t}, R s t → R (beginReset s) (beginReset t)
  dropMove : ∀ {s t}, R s t → R (dropMove s) (dropMove t)
  endCommand : ∀ e {s t}, R s t → R (endCommand e s) (endCommand (e.map f) t)
  endReset : ∀ e {s t}, R s t → R (endReset e s) (endReset (e.map f) t)
  endEngine : ∀ e {s t}, R s t → R (endEngine e s) (endEngine (e.map f) t)

/-- Outcomes that stop alike, or go on to related states. -/
def Related (R : State A → State B → Prop) : Outcome A → Outcome B → Prop
  | .next s, .next t => R s t
  | .fault r, .fault r' => r = r'
  | .refused r, .refused r' => r = r'
  | _, _ => False

section
variable {f : A → B} {R : State A → State B → Prop} (h : StepsRespect f R)
include h

theorem StepsRespect.busy_eq {s : State A} {t : State B} (hst : R s t) : t.busy = s.busy := by
  rw [State.busy, State.busy, h.run_eq hst]

theorem StepsRespect.runCommand (i : Instr) {s : State A} {t : State B} (hst : R s t) :
    Related R (runCommand i s) (runCommand i t) := by
  by_cases hrun : s.run = .idle
  · obtain ⟨hend, hfail⟩ := h.events.runEvents (planEvents (plan i)) (h.accept i hst)
    rw [runCommand_idle i hrun, runCommand_idle i ((h.run_eq hst).trans hrun)]
    show R (Machine.endCommand _ _) (Machine.endCommand _ _)
    rw [hfail]
    exact h.endCommand _ hend
  · rw [runCommand_not_idle i hrun, runCommand_not_idle i (h.run_eq hst ▸ hrun)]
    exact hst

theorem StepsRespect.requestReset {s : State A} {t : State B} (hst : R s t) : Related R (requestReset s) (requestReset t) := by
  have htakes : t.takesReset = s.takesReset := congrArg (!·) (h.busy_eq hst)
  cases hs : s.takesReset
  · rw [requestReset_not_honoured hs, requestReset_not_honoured (htakes.trans hs)]
    exact hst
  · obtain ⟨hend, hfail⟩ := h.events.runEvents inactiveEvents (h.beginReset hst)
    rw [requestReset_honoured hs, requestReset_honoured (htakes.trans hs)]
    show R (Machine.endReset _ _) (Machine.endReset _ _)
    rw [hfail]
    exact h.endReset _ hend

theorem StepsRespect.runEngine (evs : List Event) {s : State A} {t : State B} (hst : R s t) :
    Related R (runEngine evs s) (runEngine evs t) := by
  obtain ⟨hend, hfail⟩ := h.events.runEvents evs hst
  show R (Machine.endEngine _ _) (Machine.endEngine _ _)
  rw [hfail]
  exact h.endEngine _ hend

theorem StepsRespect.execOf (i : Instr) {s : State A} {t : State B} (hst : R s t) : Related R (execOf i s) (execOf i t) := by
  rcases execOf_kind i with ⟨-, hi⟩ | ⟨-, hi⟩ | ⟨-, -, evs, hi⟩
  · rw [hi A, hi B]; exact h.runCommand i hst
  · rw [hi A, hi B]; exact h.requestReset hst
  · rw [hi A, hi B]; exact h.runEngine evs hst

theorem StepsRespect.busyStep (i : Instr) (k j : Nat) {s : State A} {t : State B} (hst : R s t) :
    Related R (busyStep i k j s) (busyStep i k j t) := by
  cases hq : (plan i)[k]? with
  | none => simp [Machine.busyStep, hq, Related]
  | some q =>
    cases hev : (txnEvents q.1 q.2)[j]? with
    | none => simp [Machine.busyStep, hq, hev, Related]
    | some ev =>
      obtain ⟨hnext, hfail⟩ := h.events ev hst
      cases hs : (issue ev s).2 with
      | some e =>
        rw [busyStep_fails hq hev hs, busyStep_fails hq hev (hfail.trans (congrArg _ hs))]
        exact h.endCommand (some e) hnext
      | none =>
        rw [busyStep_goes_on hq hev hs, busyStep_goes_on hq hev (hfail.trans (congrArg _ hs))]
        show R (advance _ _ _ _) (advance _ _ _ _)
        unfold advance
        split
        · exact h.atPos _ hnext
        · split
          · exact h.atPos _ hnext
          · exact h.endCommand none hnext

theorem StepsRespect.resettingStep (r : Nat) {s : State A} {t : State B} (hst : R s t) :
    Related R (resettingStep r s) (resettingStep r t) := by
  cases hev : inactiveEvents[r]? with
  | none => simp [Machine.resettingStep, hev, Related]
  | some ev =>
    obtain ⟨hnext, hfail⟩ := h.events ev hst
    cases hs : (issue ev s).2 with
    | some e =>
      rw [resettingStep_fails hev hs, resettingStep_fails hev (hfail.trans (congrArg _ hs))]
      exact h.endReset (some e) hnext
    | none =>
      rw [resettingStep_goes_on hev hs, resettingStep_goes_on hev (hfail.trans (congrArg _ hs))]
      show R (advanceReset _ _) (advanceReset _ _)
      unfold advanceReset
      split
      · exact h.atPos _ hnext
      · exact h.endReset none hnext

theorem StepsRespect.sequencerStep {s : State A} {t : State B} (hst : R s t) : Related R (sequencerStep s) (sequencerStep t) := by
  unfold Machine.sequencerStep
  rw [h.run_eq hst, h.cmd_eq hst, h.pos_eq hst]
  cases s.run with
  | busy =>
    cases s.cmd with
    | none => exact rfl
    | some i =>
      cases s.pos with
      | step k j => exact h.busyStep i k j hst
      | noValue | resetStep r => exact rfl
  | resetting =>
    cases s.pos with
    | resetStep r => exact h.resettingStep r hst
    | noValue | step k j => exact rfl
  | off | dead | idle => exact hst

/-- A move of the host is the same in related states (R90, R200). -/
theorem StepsRespect.takeMove (m : HostMove) {s : State A} {t : State B} (hst : R s t) :
    (∃ i, takeMove m s = .run i s ∧ takeMove m t = .run i t) ∨
    (∃ i, takeMove m s = .accepted i s ∧ takeMove m t = .accepted i t) ∨
    (takeMove m s = .resetRequested s ∧ takeMove m t = .resetRequested t) ∨
    (takeMove m s = .nothing s ∧ takeMove m t = .nothing t) := by
  have htakes : t.takesReset = s.takesReset := congrArg (!·) (h.busy_eq hst)
  have hready : t.ready = s.ready := congrArg (· == .idle) (h.run_eq hst)
  have hseen : ∀ e, seen e t = seen e s := fun e => by cases e <;> simp only [seen, htakes, hready]
  cases m with
  | call e => by_cases hs : seen e s = true <;> cases hd : decode e <;> simp [Machine.takeMove, hseen, hs, hd]
  | present w =>
    by_cases hs : seen (.cmd32 w) s = true <;> cases hd : decode (.cmd32 w) <;> simp [Machine.takeMove, hseen, hs, hd]
  | requestReset => by_cases hs : s.takesReset = true <;> simp [Machine.takeMove, htakes, hs]
  | release => exact .inr (.inr (.inr ⟨rfl, rfl⟩))

/-- Related states step alike, to related states. -/
theorem StepsRespect.stepOf {s : State A} {t : State B} (hst : R s t) : Related R (stepOf s) (stepOf t) := by
  simp only [Machine.stepOf, stepBy, fetch, h.busy_eq hst, h.agenda_eq hst]
  by_cases hb : s.busy = true
  · simp only [hb, if_true]
    exact h.sequencerStep hst
  · simp only [hb]
    cases s.env.agenda with
    | nil => exact hst
    | cons m rest =>
      have hdrop := h.dropMove hst
      rcases h.takeMove m hdrop with ⟨i, hs, ht⟩ | ⟨i, hs, ht⟩ | ⟨hs, ht⟩ | ⟨hs, ht⟩ <;> simp only [hs, ht]
      · exact h.execOf i hdrop
      · exact h.accept i hdrop
      · exact h.beginReset hdrop
      · exact hdrop

end

/-! ### Renaming error values -/

theorem mapPins_head (f : A → B) (p : Script (Answer A)) : (mapPins f p).head = mapAnswer f p.head := by
  obtain ⟨upcoming, thereafter⟩ := p
  cases upcoming <;> rfl

theorem mapPins_tail (f : A → B) (p : Script (Answer A)) : (mapPins f p).tail = mapPins f p.tail := by
  obtain ⟨upcoming, thereafter⟩ := p
  cases upcoming <;> rfl

/-- No line level depends on an error value. -/
theorem levelAfter_mapAnswer (f : A → B) (b : Bool) (a : Answer A) : levelAfter b (mapAnswer f a) = levelAfter b a := by
  cases a <;> rfl

theorem setEntry_mapAnswer (f : A → B) (n : Line) (b : Bool) (a : Answer A) :
    setEntry n b (mapAnswer f a) = mapEntry f (setEntry n b a) := by
  cases a <;> rfl

theorem faultOf_mapAnswer (f : A → B) (a : Answer A) : faultOf (mapAnswer f a) = (faultOf a).map f := by
  cases a <;> rfl

theorem lastWasWait_map (f : A → B) (es : List (TraceEntry A)) : lastWasWait (es.map (mapEntry f)) = lastWasWait es := by
  cases es with
  | nil => rfl
  | cons x es => cases x <;> rfl

/-- The observer reads of the trace only whether the event before was a wait (R67). -/
theorem observe_mapErrors (f : A → B) (n : Line) (l0 l1 : Lines) (s : State A) :
    observe n l0 l1 (mapErrors f s) = mapErrors f (observe n l0 l1 s) := by
  have hwait : lastWasWait (mapErrors f s).trace = lastWasWait s.trace := lastWasWait_map f s.trace
  have hresponds : responds (mapErrors f s) = responds s := congrArg (· || _) hwait
  have htakes : takesTransient n l0 l1 (mapErrors f s) = takesTransient n l0 l1 s := congrArg (_ && !·) hwait
  simp only [observe, hresponds, htakes]
  rfl

theorem pinSet_mapErrors (f : A → B) (n : Line) (b : Bool) (s : State A) :
    pinSet n b (mapErrors f s) = (mapErrors f (pinSet n b s).1, (pinSet n b s).2.map f) := by
  have hhead : (mapErrors f s).env.pins.head = mapAnswer f s.env.pins.head := mapPins_head f s.env.pins
  have htail : (mapErrors f s).env.pins.tail = mapPins f s.env.pins.tail := mapPins_tail f s.env.pins
  have hlines : (mapErrors f s).lines = s.lines := rfl
  simp only [pinSet, hhead, hlines, levelAfter_mapAnswer, setEntry_mapAnswer, faultOf_mapAnswer, observe_mapErrors]
  refine Prod.ext ?_ rfl
  simp only [mapErrors, observe_pins]
  rw [← mapPins_tail]
  rfl

theorem resultOf_map (f : A → B) (e : Option A) : resultOf (e.map f) = mapResult f (resultOf e) := by
  cases e <;> rfl

/-- Renaming is respected by every write: none looks at an error value. -/
theorem mapErrors_respected (f : A → B) : StepsRespect f fun s t => t = mapErrors f s where
  events ev s t hst := by
    subst hst
    cases ev with
    | wait d => exact ⟨rfl, rfl⟩
    | pinSet n b => simp [issue_pinSet, pinSet_mapErrors]
  run_eq hst := by rw [hst]; rfl
  cmd_eq hst := by rw [hst]; rfl
  pos_eq hst := by rw [hst]; rfl
  agenda_eq hst := by rw [hst]; rfl
  atPos p _ _ hst := by rw [hst]; rfl
  accept i _ _ hst := by rw [hst]; rfl
  beginReset hst := by rw [hst]; rfl
  dropMove hst := by rw [hst]; rfl
  endCommand e _ _ hst := by simp only [hst, endCommand, resultOf_map]; rfl
  endReset e _ _ hst := by simp only [hst, endReset, resultOf_map, Option.isNone_map]; rfl
  endEngine e _ _ hst := by simp only [hst, endEngine, resultOf_map]; rfl

theorem related_mapErrors {f : A → B} {o : Outcome A} {o' : Outcome B} (h : Related (fun s t => t = mapErrors f s) o o') :
    o' = mapOutcome f o := by
  cases o <;> cases o' <;> simp_all [Related, mapOutcome]

/-- Settles O57: renaming is respected by every step; the rest are the model's own laws about `step` and `stepUnder`. -/
theorem errorValuesAreNeverInspected : Obligations.ErrorValuesAreNeverInspected := by
  refine ⟨fun A B f s => related_mapErrors ((mapErrors_respected f).stepOf rfl), fun s => ⟨step_eq s, ?_⟩⟩
  rw [step_eq]
  exact stepOf_eq_stepUnder s

/-! ### The chip left out -/

variable {E : Type}

/-- What the controller's side of a micro-event reads is the controller's own (R67). -/
theorem sameController_issue (ev : Event) {s t : State E} (h : SameController s t) :
    SameController (issue ev s).1 (issue ev t).1 ∧ (issue ev t).2 = (issue ev s).2 := by
  cases ev with
  | wait d => exact ⟨{ h with trace := congrArg (TraceEntry.waited d :: ·) h.trace }, rfl⟩
  | pinSet n b =>
    simp only [issue_pinSet]
    refine ⟨?_, by simp [h.pins]⟩
    constructor <;> simp [h.lines, h.run, h.cmd, h.pos, h.result, h.trace, h.engineReturn, h.pins, h.agenda]

theorem sameController_respected : StepsRespect id (SameController (E := E)) where
  events ev s t h := by simpa using sameController_issue ev h
  run_eq h := h.run.symm
  cmd_eq h := h.cmd.symm
  pos_eq h := h.pos.symm
  agenda_eq h := h.agenda.symm
  atPos p _ _ h := { h with pos := rfl }
  accept i _ _ h := { h with run := rfl, cmd := rfl, pos := rfl }
  beginReset h := { h with run := rfl, pos := rfl }
  dropMove h := { h with agenda := congrArg List.tail h.agenda }
  endCommand e _ _ h := { h with run := rfl, cmd := rfl, pos := rfl, result := by simp }
  endReset e _ _ h := { h with run := by simp, cmd := rfl, pos := rfl, result := by simp }
  endEngine e _ _ h := { h with engineReturn := by simp }

theorem outcomesRelated_of_related {R : State E → State E → Prop} {o o' : Outcome E} (h : Related R o o') :
    OutcomesRelated R o o' := by
  cases o <;> cases o' <;> exact h

/-- Settles O58: agreement on the controller is respected by every step. -/
theorem controllerIndependentOfTheChip : Obligations.ControllerIndependentOfTheChip := by
  intro s t h
  rw [step_eq, step_eq]
  exact outcomesRelated_of_related (sameController_respected.stepOf h)

/-! ### A command reads no state -/

/-- Two states with the same answers to come, whose traces have grown by the same entries since `s0` and `t0`. -/
def SameRun (s0 t0 s t : State E) : Prop :=
  s.env.pins = t.env.pins ∧ ∃ es, s.trace = es ++ s0.trace ∧ t.trace = es ++ t0.trace

/-- A micro-event's entry and failure are decided by the answer (R110). -/
theorem sameRun_respected (s0 t0 : State E) : EventsRespect id (SameRun s0 t0) := by
  rintro ev s t ⟨hpins, es, hs, ht⟩
  cases ev with
  | wait d => exact ⟨⟨hpins, .waited d :: es, by simp [issue_wait, hs], by simp [issue_wait, ht]⟩, rfl⟩
  | pinSet n b =>
    simp only [issue_pinSet]
    exact ⟨⟨by simp [hpins], setEntry n b s.env.pins.head :: es, by simp [hs], by simp [ht, hpins]⟩, by simp [hpins]⟩

/-- Settles O59: the plan's events are a function of the operands, so that both runs issue the same list. -/
theorem traceDependsOnlyOnCommandAndAnswers : Obligations.TraceDependsOnlyOnCommandAndAnswers := by
  intro i s t hc hs ht hpins
  have hstart : SameRun s t (accept i s) (accept i t) := ⟨hpins, [], rfl, rfl⟩
  obtain ⟨⟨hpins', es, hes, het⟩, hfail⟩ := (sameRun_respected s t).runEvents (planEvents (plan i)) hstart
  refine ⟨_, _, es, exec_command i s hc hs, exec_command i t hc ht, hes, het, ?_, hpins'⟩
  simp [runAccepted, hfail]

end Sys2Proof.Proofs
end
